-- ==== Sys2Proof/Word.lean ====
section
/-! DEFINITION. The plain value types: bytes, the two encoding words, and line levels (00_scope.md R8, R9). -/

namespace Sys2Proof

/-- A byte, 8 bits, bit 0 the least significant (R8). -/
abbrev Byte := BitVec 8

/-- A host word `H`, 16 bits (R93). -/
abbrev HostWord := BitVec 16

/-- A state word `S`, 10 bits (R41, R95). -/
abbrev StateWord := BitVec 10

/-- The level of an output line (R9). -/
inductive Level where
  | low
  | high
  deriving DecidableEq, Repr, Inhabited

/-- The other level, `not(l)` of R9. -/
def Level.other : Level → Level
  | .low => .high
  | .high => .low

/-- `lvl(b)` of R9: 0 is Low, 1 is High. -/
def Level.ofBit : Bool → Level
  | false => .low
  | true => .high

/-- The bit a level stands for (R9): Low is 0, High is 1. -/
def Level.toBit : Level → Bool
  | .low => false
  | .high => true

end Sys2Proof
end

