-- ==== Sys2Proof/Config.lean ====
section
/-! DEFINITION. The parameters of 00_scope.md R7, and the values the spec leaves open, as constants without a body. -/

namespace Sys2Proof

/-- A glyph: `GLYPH_W` = 5 column bytes, each of `GLYPH_H` = 7 rows and one further bit (R7, R207, R208). -/
abbrev Glyph := Vector Byte 5

/-- The parameters of R7 that a model may override (levels and `INIT_RST_PENDING`) or that R7 marks OPEN.
A machine carries one such record in its state and no step changes it (log entry 2). -/
structure Config where
  /-- `CLK_IDLE_LEVEL`, driven by I.CLK (decision D5: High). -/
  clkIdleLevel : Level := .high
  /-- `RST_STEP2_LEVEL`, driven by I.RST (decision D6: High). -/
  rstStep2Level : Level := .high
  /-- `INIT_RST_PENDING` (decision D8: true). -/
  initRstPending : Bool := true
  /-- `DC_CMD_LEVEL`, the level of `DC` for a command byte (decision D11: Low). -/
  dcCmdLevel : Level := .low
  /-- `CS_ACTIVE_LEVEL`, driven once at initialisation (decision D12: Low). -/
  csActiveLevel : Level := .low
  /-- `REGEN_ACTIVE_LEVEL`, driven once at initialisation when the line exists (decision D13: High). -/
  regenActiveLevel : Level := .high
  /-- `HAS_REGEN`: whether the regulator-enable line exists (OPEN). -/
  hasRegen : Bool
  /-- `COLS`, columns of the Pixel Buffer (OPEN, decision D17). -/
  cols : Nat
  /-- `ROWS`, rows of the Pixel Buffer (OPEN, decision D17). -/
  rows : Nat
  /-- `T_SWRESET_DELAY_TICKS`, the delay after `0xE2` (OPEN, decision D18). -/
  swresetDelayTicks : Nat
  deriving DecidableEq, Repr

/-- `PAGES = ROWS / 8` (R7). -/
def Config.pages (c : Config) : Nat := c.rows / 8

/-- What R7 and decision D17 ask of the OPEN parameters: `COLS` positive, `ROWS` a positive multiple of 8, `PAGES` at most 16. -/
abbrev Config.wf (c : Config) : Prop :=
  0 < c.cols ∧ 0 < c.rows ∧ c.rows % 8 = 0 ∧ c.pages ≤ 16

/-- The six levels and flags at the spec's default values (R7, decisions D5, D6, D8, D11, D12, D13). -/
abbrev Config.isDefault (c : Config) : Prop :=
  c.clkIdleLevel = .high ∧ c.rstStep2Level = .high ∧ c.initRstPending = true ∧
  c.dcCmdLevel = .low ∧ c.csActiveLevel = .low ∧ c.regenActiveLevel = .high

/-- FREE VALUE: whether this machine has the regulator-enable line (R7 OPEN; log entry 3). -/
opaque Config.openHasRegen : Bool

/-- FREE VALUE: one less than this machine's `COLS` (R7 OPEN; log entry 3). -/
opaque Config.openColsPred : Nat

/-- FREE VALUE: one less than this machine's `PAGES`, so `PAGES` is 1 to 16 (R7 OPEN; log entry 3). -/
opaque Config.openPagesPred : Fin 16

/-- FREE VALUE: this machine's `T_SWRESET_DELAY_TICKS` (R7 OPEN; log entry 3). -/
opaque Config.openSwresetDelayTicks : Nat

/-- FREE VALUE: what `slot.value` holds before the first SUB (R38 "no value (unspecified)"; log entry 4). -/
opaque Config.slotValueAtReset : Byte

/-- FREE VALUE: what `slot.isCommand` holds before the first SUB (R38 "no value (unspecified)"; log entry 4). -/
opaque Config.slotIsCommandAtReset : Bool

/-- FREE VALUE: the glyph table, by index `asciiCode - 32` (R208: its contents are not in the source). That it has a glyph at every
index, with no last one, is the model's choice: the spec does not state the number of glyphs (log entry 15). -/
opaque Config.glyphTable : Nat → Glyph

/-- FREE VALUE: what the glyph collaborator answers for a code below 32 (R208: not stated; log entry 15). -/
opaque Config.glyphBelowBase : Nat → Glyph

/-- The configuration of this machine: the spec's defaults, and the OPEN parameters left free. -/
def Config.machine : Config where
  hasRegen := Config.openHasRegen
  cols := Config.openColsPred + 1
  rows := 8 * (Config.openPagesPred.val + 1)
  swresetDelayTicks := Config.openSwresetDelayTicks

/-! The parameters whose value the source fixes (R7). -/

/-- `RST_ASSERT_LEVEL` (source: "hardware reset line low (assert device reset)"). -/
def Config.rstAssertLevel : Level := .low

/-- `BITS_PER_BYTE`. -/
def Config.bitsPerByte : Nat := 8

/-- `TICKS_PER_BIT`. -/
def Config.ticksPerBit : Nat := 2

/-- `TICKS_PER_BYTE`. -/
def Config.ticksPerByte : Nat := 16

/-- `CONTRAST_INIT`, the contrast value byte of INIT. -/
def Config.contrastInit : Byte := 0x30

/-- `GLYPH_W`, the columns of a glyph, one byte each in `Glyph`. -/
def Config.glyphWidth : Nat := 5

/-- `GLYPH_H`, the rows of a glyph. A column byte has 8 bits, and BLIT copies all of them as they are (R207). -/
def Config.glyphHeight : Nat := 7

/-- `GLYPH_BASE`, the code of the first glyph. -/
def Config.glyphBase : Nat := 32

/-- `TICK_HZ` (timing only). -/
def Config.tickHz : Nat := 200000

/-- `SYSCLK_HZ` (timing only). -/
def Config.sysclkHz : Nat := 96000000

/-- `TIMER_DIV`, derived (decision D28). -/
def Config.timerDiv : Nat := Config.sysclkHz / Config.tickHz

end Sys2Proof
end

