-- ==== Sys2Proof/Machine/State.lean ====
section
/-! DEFINITION. The state of the machine: the block's fields and line latches (10_state.md R20), the observation logs (R36),
the configuration, and the HOST agent's side (its pending program, what it last read, its Pixel Buffer). Plain data. -/

namespace Sys2Proof.Machine

/-- The Link Phase (R26). The code `0b11` is no value of the type (R99). -/
inductive Phase where
  | idle
  | transmitting
  | resetting
  deriving DecidableEq, Repr, Inhabited

/-- The two-step sub-state (R27). -/
inductive Sub where
  | assertClockIdle
  | assertReset
  deriving DecidableEq, Repr, Inhabited

/-- The half of a bit period the next delegated tick performs (R30). -/
inductive HalfPhase where
  | dataSetup
  | clockPulse
  deriving DecidableEq, Repr, Inhabited

/-- The four micro-steps of SUB, in the order of 42_host_handshake.md R171. -/
inductive SubStep where
  /-- Micro-step 1: drive `DC` for the kind `c`. -/
  | driveDc (c : Bool)
  /-- Micro-step 2: `slot.value <- v`. -/
  | writeValue (v : Byte)
  /-- Micro-step 3: `slot.isCommand <- c`. -/
  | writeKind (c : Bool)
  /-- Micro-step 4: `slot.ready <- true`, the publish point. -/
  | publish
  deriving DecidableEq, Repr

/-- One access of a bus-attached host to the register binding of 20_memory.md R67: an offset from `BASE` and a width, in bytes. -/
inductive BusAccess where
  /-- `MemWrite(BASE + offset, width, data)`. -/
  | write (offset width : Nat) (data : BitVec 32)
  /-- `MemRead(BASE + offset, width)`. -/
  | read (offset width : Nat)
  deriving DecidableEq, Repr

/-- One line of what the HOST agent has still to do: a host program (30_encoding.md R101) with TICK lines inserted where the
interleaving of 00_scope.md R11 puts a tick (a trace, R101). -/
inductive HostLine where
  /-- A word of format H: SUB, POLL, WAIT, RSTREQ, or the TICK marker (R94). -/
  | word (w : HostWord)
  /-- A byte of format P, sent as a command (R97). -/
  | command (b : Byte)
  /-- One access to the register binding (R67). -/
  | bus (a : BusAccess)
  /-- One micro-step of a SUB written out (R171). -/
  | subStep (m : SubStep)
  /-- `SUBB.C v` or `SUBB.D v` (R175). -/
  | subb (c : Bool) (v : Byte)
  /-- `DELAY n`: n ticks pass (R201). -/
  | delay (n : Nat)
  /-- `INIT` (R201). -/
  | init
  /-- `FRAME buf` (R202). -/
  | frame
  /-- `CONTRAST v` (R203). -/
  | contrast (v : Byte)
  /-- `SETPX x, y, on` (R205). -/
  | setPx (x y : Nat) (on : Bool)
  /-- `CLRBUF` (R206). -/
  | clrBuf
  /-- `BLIT x, page, g` (R207). -/
  | blit (x page : Nat) (g : Glyph)
  deriving DecidableEq, Repr

/-- Which clause of the contract a host broke (60_exceptions.md R232). -/
inductive ViolationKind where
  /-- SUB while `slot.ready = true` (R172). -/
  | reentrant
  /-- Pixel coordinates outside the buffer (R205, R207). -/
  | coordinates
  deriving DecidableEq, Repr

/-- The faults. The hardware has none (R230): a fault is the model's verdict on a host program. -/
inductive Fault where
  /-- Raised by SUB (in every spelling, and by its micro-steps) on a full slot and by SETPX and BLIT outside the buffer, where the
  source says "undefined behavior by contract" (R172, R205, R207, decisions D15, D24). Safe: nothing can be proved past it. -/
  | contractViolation (k : ViolationKind)
  deriving DecidableEq, Repr

/-- The refusals: inputs the spec says the model does not accept, each by its name. -/
inductive Refusal where
  /-- An instruction without a meaning yet, raised by an arm of exec. Safe. -/
  | notModelled (mnemonic : String)
  /-- A host word that matches no row of R94, raised by the fetch of a host line (R99, U6). Safe. -/
  | reservedHostWord (w : HostWord)
  /-- A state word with phase code `0b11` (R99, U7), raised by the fetch of a tick. No state packs to one. Safe. -/
  | notAStateWord (w : StateWord)
  /-- A bus access outside the binding of R67 (U11), raised by the fetch of a bus line. Safe. -/
  | busOutsideBinding (a : BusAccess)
  /-- A micro-step of a SUB that does not follow the micro-steps before it (R68, R171), raised by that line (log entry 7). Safe. -/
  | subStepOutOfOrder (m : SubStep)
  /-- `CONTRAST v` with `v > 0x3F` (R203, U8), raised by the fetch of that line. Safe. -/
  | contrastOutOfRange (v : Byte)
  deriving DecidableEq, Repr

/-- The HOST agent's Pixel Buffer, by flat address, in one canonical form: addresses strictly rising and no byte equal to
what an unlisted address reads as (R35, R204). -/
abbrev Memory := List Host.Cell

/-- The state of the machine. -/
structure State where
  /-- The parameters of R7 this machine was built with; no step changes them (log entry 2). -/
  cfg : Config
  /-- `slot.value` (R21). -/
  value : Byte
  /-- `slot.isCommand` (R22). -/
  isCommand : Bool
  /-- `slot.ready` (R23). -/
  ready : Bool
  /-- `resetReq` (R25). -/
  resetReq : Bool
  /-- `phase` (R26). -/
  phase : Phase
  /-- `sub` (R27). -/
  sub : Sub
  /-- `rstPending` (R28). -/
  rstPending : Bool
  /-- `bitIndex` (R29). -/
  bitIndex : BitVec 3
  /-- `halfPhase` (R30). -/
  halfPhase : HalfPhase
  /-- `Pin(CLK)`; none while nothing has driven the line (R9, R32, R33). -/
  clk : Option Level
  /-- `Pin(DAT)` (R32). -/
  dat : Option Level
  /-- `Pin(RST)` (R32). -/
  rst : Option Level
  /-- `Pin(DC)` (R32). -/
  dc : Option Level
  /-- `Pin(CS)` (R32). -/
  cs : Option Level
  /-- `Pin(REGEN)` (R32); none where the line does not exist. -/
  regen : Option Level
  /-- The log `wire` of R36, `(DAT, CLK)` after each delegated tick, oldest first. -/
  wire : List (Option Level × Option Level)
  /-- The receiver of R36 inside a byte: the samples of `DAT` since the last byte boundary, first sample first. -/
  rxSamples : List (Option Level)
  /-- The log `rx` of R36, `(byte, DC)`, oldest first; a byte with a sample of an undriven line has no value. -/
  rx : List (Option Byte × Option Level)
  /-- What the HOST agent has still to do, first line first (log entry 5). -/
  host : List HostLine
  /-- The micro-steps done of the SUB that the host has begun to write out, oldest first; empty when it has none begun (R171; log
  entry 7). -/
  subDone : List SubStep
  /-- What the last POLL returned to the host (R173); none before the first (log entry 6). -/
  lastPoll : Option Bool
  /-- What the last bus read returned to the host (R67); none before the first (log entry 6). -/
  busData : Option (BitVec 32)
  /-- The Pixel Buffer (R35, R204), host memory (log entry 10). -/
  buf : Memory
  deriving DecidableEq, Repr

/-- The initialisation state of R38 and R260 for a configuration. -/
def State.resetWith (c : Config) : State where
  cfg := c
  value := Config.slotValueAtReset
  isCommand := Config.slotIsCommandAtReset
  ready := false
  resetReq := false
  phase := .idle
  sub := .assertClockIdle
  rstPending := c.initRstPending
  bitIndex := 0#3
  halfPhase := .dataSetup
  clk := none
  dat := none
  rst := none
  dc := none
  cs := some c.csActiveLevel
  regen := if c.hasRegen then some c.regenActiveLevel else none
  wire := []
  rxSamples := []
  rx := []
  host := []
  subDone := []
  lastPoll := none
  busData := none
  buf := []

/-- The machine right after initialisation of the block (R38, R260). -/
def State.reset : State := State.resetWith Config.machine

end Sys2Proof.Machine
end

