-- ==== Sys2Proof/Machine/Flags.lean ====
section
/-! DEFINITION. The three one-bit conditions `ready`, `resetReq` and `rstPending`: what sets and clears each
(10_state.md R23, R25, R28; 60_exceptions.md R237). There are no arithmetic flags. -/

namespace Sys2Proof.Machine

/-- The host's publish: `slot.ready <- true` (R23, R170). -/
@[simp] def State.setReady (s : State) : State := { s with ready := true }

/-- The Link State Machine's completion write: `slot.ready <- false` (R23, R144). -/
@[simp] def State.clearReady (s : State) : State := { s with ready := false }

/-- The host's request: `resetReq <- true` (R25, R176). -/
@[simp] def State.setResetReq (s : State) : State := { s with resetReq := true }

/-- The consumption of a request: `resetReq <- false` (R25, R147). -/
@[simp] def State.clearResetReq (s : State) : State := { s with resetReq := false }

/-- "mark the power-up-reset-pending condition": `rstPending <- true` (R28, R147, R148). -/
@[simp] def State.setRstPending (s : State) : State := { s with rstPending := true }

/-- The pending reset has been serviced: `rstPending <- false` (R28, R142). -/
@[simp] def State.clearRstPending (s : State) : State := { s with rstPending := false }

end Sys2Proof.Machine
end

