-- ==== Sys2Proof/Syntax.lean ====
section
/-! DEFINITION. The instructions: one constructor per row of spec/opcode_table.json, in the table's order.
Nine micro-operations of the TICK agent (format S, 30_encoding.md R95), the TICK marker and the host operations
(format H, R94), and the command bytes the host software sends (format P, R97). -/

namespace Sys2Proof

inductive Instr where
  /-- I.CLK (R141). -/
  | iClk
  /-- I.RST (R142). -/
  | iRst
  /-- I.SKIP (R143). -/
  | iSkip
  /-- T.SETUP (R121). -/
  | tSetup
  /-- T.PULSE (R122). -/
  | tPulse
  /-- T.WAIT (R145). -/
  | tWait
  /-- T.RSTGO (R146). -/
  | tRstgo
  /-- R.HOLD (R147). -/
  | rHold
  /-- R.EXIT (R148). -/
  | rExit
  /-- TICK: one `onTick()` (R140). -/
  | tick
  /-- SUB: `submitByte(v, c)` with the kind as an operand (R170). -/
  | sub (c : Bool) (v : Byte)
  /-- SUB.C: SUB with `isCommand = true` (R170, R94). -/
  | subC (v : Byte)
  /-- SUB.D: SUB with `isCommand = false` (R170, R94). -/
  | subD (v : Byte)
  /-- POLL (R173). -/
  | poll
  /-- WAIT (R174). -/
  | wait
  /-- RSTREQ (R176). -/
  | rstreq
  /-- CMD.SWRESET, byte `0xE2` (R97). -/
  | cmdSwreset
  /-- CMD.A2, byte `0xA2` (R97). -/
  | cmdA2
  /-- CMD.A0, byte `0xA0` (R97). -/
  | cmdA0
  /-- CMD.C8, byte `0xC8` (R97). -/
  | cmdC8
  /-- CMD.24, byte `0x24` (R97). -/
  | cmd24
  /-- CMD.CONTRAST, byte `0x81` (R97). -/
  | cmdContrast
  /-- CMD.2F, byte `0x2F` (R97). -/
  | cmd2F
  /-- CMD.40, byte `0x40` (R97). -/
  | cmd40
  /-- CMD.AF, byte `0xAF` (R97). -/
  | cmdAF
  /-- CMD.PAGE, byte `0xB0 | pageIndex` (R97, R98). -/
  | cmdPage (pageIndex : Nat)
  /-- CMD.COLHI0, byte `0x10` (R97). -/
  | cmdColhi0
  /-- CMD.COLLO0, byte `0x00` (R97). -/
  | cmdCollo0
  /-- CMD.RELEASE, byte `0xEE` (R97). -/
  | cmdRelease
  deriving DecidableEq, Repr

/-- The mnemonic of an instruction's row in spec/opcode_table.json. -/
def Instr.mnemonic : Instr → String
  | .iClk => "I.CLK"
  | .iRst => "I.RST"
  | .iSkip => "I.SKIP"
  | .tSetup => "T.SETUP"
  | .tPulse => "T.PULSE"
  | .tWait => "T.WAIT"
  | .tRstgo => "T.RSTGO"
  | .rHold => "R.HOLD"
  | .rExit => "R.EXIT"
  | .tick => "TICK"
  | .sub _ _ => "SUB"
  | .subC _ => "SUB.C"
  | .subD _ => "SUB.D"
  | .poll => "POLL"
  | .wait => "WAIT"
  | .rstreq => "RSTREQ"
  | .cmdSwreset => "CMD.SWRESET"
  | .cmdA2 => "CMD.A2"
  | .cmdA0 => "CMD.A0"
  | .cmdC8 => "CMD.C8"
  | .cmd24 => "CMD.24"
  | .cmdContrast => "CMD.CONTRAST"
  | .cmd2F => "CMD.2F"
  | .cmd40 => "CMD.40"
  | .cmdAF => "CMD.AF"
  | .cmdPage _ => "CMD.PAGE"
  | .cmdColhi0 => "CMD.COLHI0"
  | .cmdCollo0 => "CMD.COLLO0"
  | .cmdRelease => "CMD.RELEASE"

/-- The spelling a host word is read as: `SUB.C v` is SUB with `c = 1` and `SUB.D v` is SUB with `c = 0` (R94),
so `SUB` names the same words and the decoder answers the spelling with the kind in it. -/
def Instr.canonical : Instr → Instr
  | .sub true v => .subC v
  | .sub false v => .subD v
  | i => i

end Sys2Proof
end

