-- ==== Sys2Proof/WellFormed.lean ====
section
/-! DEFINITION. Which instructions are well formed. Every operand but one has a type that admits exactly the values its field
admits; the page index is a number, and the spec bounds it (30_encoding.md R98, `PAGES <= 16`). -/

namespace Sys2Proof

/-- A page index fits the four low bits of `0xB0 | pageIndex` (R98: `pageIndex` in `0..15`). -/
def pageIndexOk (p : Nat) : Bool := decide (p ≤ 15)

/-- The check of an instruction's operands. -/
def Instr.wf : Instr → Bool
  | .cmdPage p => pageIndexOk p
  | _ => true

end Sys2Proof
end

