-- ==== Sys2Proof/Decode.lean ====
section
/-! DEFINITION. The three encodings of 30_encoding.md (formats S, H and P), decoded and encoded.
Format W, the wire, is what the machine drives (Machine/BitClocker.lean), not a word it decodes. -/

namespace Sys2Proof

/-- A code word with its format (R90). -/
inductive CodeWord where
  /-- Format S: a state word, which selects the micro-operation of a tick (R95). -/
  | state (w : StateWord)
  /-- Format H: a host word (R93). -/
  | host (w : HostWord)
  /-- Format P: a command byte (R97). -/
  | payload (b : Byte)
  deriving DecidableEq, Repr

/-- Why a code word stands for no instruction (R99). -/
inductive Reject where
  /-- A host word that matches no row of R94. -/
  | reservedHostWord (w : HostWord)
  /-- A state word with phase code `0b11`. -/
  | notAStateWord (w : StateWord)
  deriving DecidableEq, Repr

/-! ## Format S -/

/-- One row of the table of R95. -/
structure StateRow where
  mask : StateWord
  pat : StateWord
  instr : Instr
  deriving DecidableEq, Repr

/-- A word is the row's when it agrees with the pattern under the mask (R94, R95). -/
def StateRow.matches (r : StateRow) (w : StateWord) : Bool := w &&& r.mask == r.pat

/-- The table of R95. -/
def stateRows : List StateRow :=
  [ ⟨0x3C0, 0x040, .iClk⟩,
    ⟨0x3C0, 0x0C0, .iRst⟩,
    ⟨0x340, 0x000, .iSkip⟩,
    ⟨0x328, 0x120, .tSetup⟩,
    ⟨0x328, 0x128, .tPulse⟩,
    ⟨0x330, 0x100, .tWait⟩,
    ⟨0x330, 0x110, .tRstgo⟩,
    ⟨0x310, 0x210, .rHold⟩,
    ⟨0x310, 0x200, .rExit⟩ ]

/-- The micro-operation a state word selects (R95); none for phase code `0b11` (R96, R99). -/
def decodeState (w : StateWord) : Option Instr :=
  (stateRows.find? (·.matches w)).map (·.instr)

/-! ## Format H -/

/-- The `op` field of a host word (R93). -/
def hostOp (w : HostWord) : BitVec 4 := w.extractLsb' 12 4

/-- The `c` bit of a host word (R93). -/
def hostKind (w : HostWord) : Bool := w.getLsbD 8

/-- The `val` field of a host word (R93). -/
def hostVal (w : HostWord) : Byte := w.extractLsb' 0 8

/-- The operation a host word encodes (R94); none for a reserved word (R99). -/
def decodeHost (w : HostWord) : Option Instr :=
  if w &&& 0xFFFF = 0x0000 then some .tick
  else if w &&& 0xFE00 = 0x1000 then
    some (if hostKind w then .subC (hostVal w) else .subD (hostVal w))
  else if w &&& 0xFFFF = 0x2000 then some .poll
  else if w &&& 0xFFFF = 0x3000 then some .wait
  else if w &&& 0xFFFF = 0x4000 then some .rstreq
  else none

/-! ## Format P -/

/-- The row of R97 a command byte is; a byte without a row (an argument such as the contrast value `0x30`) is the
submission of that byte as a command, since no byte value is reserved (R99, R100; log entry 8). -/
def decodePayload (b : Byte) : Instr :=
  if b &&& 0xF0 = 0xB0 then .cmdPage (b.extractLsb' 0 4).toNat
  else if b = 0xE2 then .cmdSwreset
  else if b = 0xA2 then .cmdA2
  else if b = 0xA0 then .cmdA0
  else if b = 0xC8 then .cmdC8
  else if b = 0x24 then .cmd24
  else if b = 0x81 then .cmdContrast
  else if b = 0x2F then .cmd2F
  else if b = 0x40 then .cmd40
  else if b = 0xAF then .cmdAF
  else if b = 0x10 then .cmdColhi0
  else if b = 0x00 then .cmdCollo0
  else if b = 0xEE then .cmdRelease
  else .subC b

/-- The page-select byte, an 8-bit bitwise OR (R98). -/
def pageSelectByte (p : Nat) : Byte := 0xB0 ||| BitVec.ofNat 8 p

/-! ## The decoder and the encoder -/

/-- The instruction a code word encodes, or the named reason why it encodes none. -/
def decode : CodeWord → Except Reject Instr
  | .state w => match decodeState w with
    | some i => .ok i
    | none => .error (.notAStateWord w)
  | .host w => match decodeHost w with
    | some i => .ok i
    | none => .error (.reservedHostWord w)
  | .payload b => .ok (decodePayload b)

/-- The host word of a submission, `0x1000 | c<<8 | v` (R94, decision D3). -/
def subWord (c : Bool) (v : Byte) : HostWord :=
  (if c then 0x1100 else 0x1000) ||| v.setWidth 16

/-- The code word of an instruction: for format S the table's pattern with every ignored bit 0. -/
def encode : Instr → CodeWord
  | .iClk => .state 0x040
  | .iRst => .state 0x0C0
  | .iSkip => .state 0x000
  | .tSetup => .state 0x120
  | .tPulse => .state 0x128
  | .tWait => .state 0x100
  | .tRstgo => .state 0x110
  | .rHold => .state 0x210
  | .rExit => .state 0x200
  | .tick => .host 0x0000
  | .sub c v => .host (subWord c v)
  | .subC v => .host (subWord true v)
  | .subD v => .host (subWord false v)
  | .poll => .host 0x2000
  | .wait => .host 0x3000
  | .rstreq => .host 0x4000
  | .cmdSwreset => .payload 0xE2
  | .cmdA2 => .payload 0xA2
  | .cmdA0 => .payload 0xA0
  | .cmdC8 => .payload 0xC8
  | .cmd24 => .payload 0x24
  | .cmdContrast => .payload 0x81
  | .cmd2F => .payload 0x2F
  | .cmd40 => .payload 0x40
  | .cmdAF => .payload 0xAF
  | .cmdPage p => .payload (pageSelectByte p)
  | .cmdColhi0 => .payload 0x10
  | .cmdCollo0 => .payload 0x00
  | .cmdRelease => .payload 0xEE

/-! ## Words numbered as the opcode table numbers them -/

/-- The format of a table word. The table's formats S (10 bits) and H (16 bits) are both two whole bytes, so a two-byte word
is read as a host word where R94 has a row for it and as a state word otherwise: the two overlap in `0x0000` only, which is
read as TICK (log entry 9). -/
def tableCodeWord (nbits w : Nat) : Option CodeWord :=
  if nbits ≤ 8 then
    if w < 2 ^ 8 then some (.payload (BitVec.ofNat 8 w)) else none
  else if nbits ≤ 10 then
    if w < 2 ^ 10 then some (.state (BitVec.ofNat 10 w)) else none
  else if w < 2 ^ 16 then
    if (decodeHost (BitVec.ofNat 16 w)).isSome then some (.host (BitVec.ofNat 16 w))
    else if w < 2 ^ 10 then some (.state (BitVec.ofNat 10 w))
    else some (.host (BitVec.ofNat 16 w))
  else none

/-- The instruction the decoder reads from a word numbered as spec/opcode_table.json numbers it. -/
def decodeTableWord (nbits w : Nat) : Option Instr :=
  match tableCodeWord nbits w with
  | some cw => (decode cw).toOption
  | none => none

end Sys2Proof
end

