-- ==== Sys2Proof/Machine/Operands.lean ====
section
/-! DEFINITION. Operands: the state word a tick reads, the bit a byte's position selects, the level of a kind, the address and bit
of a pixel, and the glyph collaborator. -/

namespace Sys2Proof.Machine

/-! ## The state word (R41, decision D2) -/

/-- The code of `phase` (R26). -/
def Phase.code : Phase → BitVec 2
  | .idle => 0b00
  | .transmitting => 0b01
  | .resetting => 0b10

/-- The code of `sub` (R27). -/
def Sub.code : Sub → Bool
  | .assertClockIdle => false
  | .assertReset => true

/-- The code of `halfPhase` (R30). -/
def HalfPhase.code : HalfPhase → Bool
  | .dataSetup => false
  | .clockPulse => true

/-- The phase with a code; none for `0b11` (R99). -/
def Phase.ofCode (c : BitVec 2) : Option Phase :=
  if c = 0b00 then some .idle
  else if c = 0b01 then some .transmitting
  else if c = 0b10 then some .resetting
  else none

/-- The sub-state with a code (R27). -/
def Sub.ofCode : Bool → Sub
  | false => .assertClockIdle
  | true => .assertReset

/-- The half-phase with a code (R30). -/
def HalfPhase.ofCode : Bool → HalfPhase
  | false => .dataSetup
  | true => .clockPulse

/-- The packed state word `S` of R41, a view of the state. -/
def State.stateWord (s : State) : StateWord :=
  s.phase.code ++ BitVec.ofBool s.sub.code ++ BitVec.ofBool s.rstPending ++ BitVec.ofBool s.ready ++
    BitVec.ofBool s.resetReq ++ BitVec.ofBool s.halfPhase.code ++ s.bitIndex

/-- A state with the fields of the state word `S` set as a word gives them, by the layout of R41; a word with phase code
`0b11` is not a state word and leaves the state as it is. -/
def State.withStateWord (s : State) (w : StateWord) : State :=
  match Phase.ofCode (w.extractLsb' 8 2) with
  | some p =>
    { s with
      phase := p
      sub := Sub.ofCode (w.getLsbD 7)
      rstPending := w.getLsbD 6
      ready := w.getLsbD 5
      resetReq := w.getLsbD 4
      halfPhase := HalfPhase.ofCode (w.getLsbD 3)
      bitIndex := w.extractLsb' 0 3 }
  | none => s

/-! ## Operands of the Bit Clocker -/

/-- `b[7 - bitIndex]` (R121, R126, R98): index 0 selects the most significant bit. -/
def selectedBit (b : Byte) (idx : BitVec 3) : Bool := b.getLsbD (7 - idx.toNat)

/-- The linear position `t = 2 * bitIndex + halfPhase` within a byte (R31). -/
def State.position (s : State) : Nat := 2 * s.bitIndex.toNat + s.halfPhase.code.toNat

/-- Whether a contrast value is in the source's range `0x00..0x3F` (R203). -/
def contrastOk (v : Byte) : Bool := decide (v.toNat ≤ 0x3F)

/-! ## Operands of the Pixel Buffer (R204) -/

/-- The page of a row, `y / 8`. -/
def pageOfRow (y : Nat) : Nat := y / 8

/-- The bit of a row within its page, `y % 8`. -/
def bitOfRow (y : Nat) : Nat := y % 8

/-- The glyph collaborator, indexed by `asciiCode - 32` (R208). The number of glyphs is not stated; that every code from 32 on has one,
and that a code below 32 is answered at all, is the model's choice (log entry 15). -/
def glyph (asciiCode : Nat) : Glyph :=
  if Config.glyphBase ≤ asciiCode then Config.glyphTable (asciiCode - Config.glyphBase)
  else Config.glyphBelowBase asciiCode

end Sys2Proof.Machine

namespace Sys2Proof

/-- The level of `DC` for a kind (R170): `DC_CMD_LEVEL` for a command, the other level for data. -/
def Config.dcLevel (c : Config) (isCommand : Bool) : Level :=
  if isCommand then c.dcCmdLevel else c.dcCmdLevel.other

/-- The address of `buf[p][x]` in the flat layout `p * COLS + x` (R204; log entry 10). -/
def Config.cellAddress (c : Config) (p x : Nat) : Nat := p * c.cols + x

/-- Whether a pixel is inside the buffer (R205). -/
def Config.pixelOk (c : Config) (x y : Nat) : Bool := decide (x < c.cols ∧ y < c.rows)

/-- Whether a glyph's five columns are inside one page of the buffer (R207). -/
def Config.blitOk (c : Config) (x page : Nat) : Bool := decide (page < c.pages ∧ x + 5 ≤ c.cols)

end Sys2Proof
end

