-- ==== Sys2Proof/Machine/Ops.lean ====
section
/-! DEFINITION. The shared operations: the Pixel Buffer's memory, the receiver that R36 observes the lines with, the wire log,
and the one verdict the model may issue. The hardware takes no exception and has no return from one (60_exceptions.md R230,
R234, R235), so `violate` is all there is to taking one. -/

namespace Sys2Proof.Machine

/-! ## Memory -/

/-- What a byte of the Pixel Buffer that nothing has written reads as (log entry 10). -/
def Memory.unlisted : Byte := 0x00

/-- The byte at an address. -/
def Memory.read : Memory → Nat → Byte
  | [], _ => Memory.unlisted
  | (k, v) :: m, a => if a = k then v else Memory.read m a

/-- Writes one byte, keeping the canonical form. -/
def Memory.write : Memory → Nat → Byte → Memory
  | [], a, b => if b = Memory.unlisted then [] else [(a, b)]
  | (k, v) :: m, a, b =>
    if a < k then
      if b = Memory.unlisted then (k, v) :: m else (a, b) :: (k, v) :: m
    else if a = k then
      if b = Memory.unlisted then m else (a, b) :: m
    else (k, v) :: Memory.write m a b

/-- Writes bytes at consecutive addresses. -/
def Memory.writeMany (m : Memory) (a : Nat) : List Byte → Memory
  | [] => m
  | b :: bs => Memory.writeMany (Memory.write m a b) (a + 1) bs

/-- The canonical form: addresses strictly rising, no entry equal to what an unlisted address reads as. -/
def Memory.wf : Memory → Bool
  | [] => true
  | (k, v) :: m => v != Memory.unlisted && m.all (fun c => decide (k < c.1)) && Memory.wf m

/-! ## The receiver and the wire log (R36) -/

/-- The byte a receiver holds after shifting samples into the low end of an 8-bit register, first sample first
(20_memory.md R61: `sr <- {sr[6:0], bit}`); no value if a sample has none. -/
def byteOfSamples (samples : List (Option Level)) : Option Byte :=
  samples.foldl
    (fun sr sample => match sr, sample with
      | some b, some l => some ((b <<< 1) ||| BitVec.ofNat 8 l.toBit.toNat)
      | _, _ => none)
    (some 0)

/-- Whether `CLK` went from Low to High between two states; from `none` is no transition (R36). -/
def risingEdge (before after : State) : Bool :=
  before.clk == some .low && after.clk == some .high

/-- The samples the receiver holds after a tick: none while the display is held in reset, one more on a rising edge, none again
after the eighth (R36). -/
def nextSamples (before after : State) : List (Option Level) :=
  if after.rst = some Config.rstAssertLevel then []
  else if risingEdge before after then
    if before.rxSamples.length + 1 = Config.bitsPerByte then [] else before.rxSamples ++ [after.dat]
  else before.rxSamples

/-- The bytes the receiver has assembled after a tick: one more on the eighth rising edge (R36). -/
def nextRx (before after : State) : List (Option Byte × Option Level) :=
  if after.rst = some Config.rstAssertLevel then before.rx
  else if risingEdge before after ∧ before.rxSamples.length + 1 = Config.bitsPerByte then
    before.rx ++ [(byteOfSamples (before.rxSamples ++ [after.dat]), after.dc)]
  else before.rx

/-- The state after a tick's line writes, with the receiver having watched them. -/
def State.observed (before after : State) : State :=
  { after with rxSamples := nextSamples before after, rx := nextRx before after }

/-- `emit Wire(Pin(DAT), Pin(CLK))` of 00_scope.md R10. -/
def State.emitWire (s : State) : State :=
  { s with wire := s.wire ++ [(s.dat, s.clk)] }

/-! ## The model's verdict -/

/-- `fault ContractViolation(kind)`: the host left the contract; no state change is defined (R230, R232, decision D15). -/
def violate (k : ViolationKind) : Host.Outcome State Fault Refusal :=
  .fault (.contractViolation k)

end Sys2Proof.Machine
end

