-- ==== Sys2Proof/Machine/BitClocker.lean ====
section
/-! DEFINITION. The Bit Clocker (40_bit_clocker.md): T.SETUP and T.PULSE. -/

namespace Sys2Proof.Machine

/-- What one call of the Bit Clocker returns (R120). -/
inductive ByteStatus where
  | byteInProgress
  | byteComplete
  deriving DecidableEq, Repr

/-- The data-setup half: the selected bit on `DAT`, `CLK` Low, both as one update (R121, decision D19). -/
def setupHalf (s : State) : State × ByteStatus :=
  ((s.observed
      { s with
        dat := some (Level.ofBit (selectedBit s.value s.bitIndex))
        clk := some .low
        halfPhase := .clockPulse }).emitWire,
    .byteInProgress)

/-- The clock-pulse half: `CLK` High, on to the next bit, and after the eighth bit back to the start state (R122). -/
def pulseHalf (s : State) : State × ByteStatus :=
  ((s.observed
      { s with
        clk := some .high
        halfPhase := .dataSetup
        bitIndex := if s.bitIndex = 7#3 then 0#3 else s.bitIndex + 1#3 }).emitWire,
    if s.bitIndex = 7#3 then .byteComplete else .byteInProgress)

/-- `advance(pendingByte)`: one call of the Bit Clocker, the half chosen by `halfPhase` (R120). -/
def advance (s : State) : State × ByteStatus :=
  match s.halfPhase with
  | .dataSetup => setupHalf s
  | .clockPulse => pulseHalf s

/-- The Link State Machine's part of a delegated tick: on `ByteComplete` it clears `ready` (R144, decision D21). -/
def afterAdvance (r : State × ByteStatus) : State :=
  match r.2 with
  | .byteComplete => r.1.clearReady
  | .byteInProgress => r.1

/-- T.SETUP (R121). -/
def execTSetup (s : State) : Host.Outcome State Fault Refusal := .next (afterAdvance (setupHalf s))

/-- T.PULSE (R122). -/
def execTPulse (s : State) : Host.Outcome State Fault Refusal := .next (afterAdvance (pulseHalf s))

end Sys2Proof.Machine
end

