-- ==== Sys2Proof/Machine/LinkFsm.lean ====
section
/-! DEFINITION. The Link State Machine (41_link_fsm.md): the micro-operations of phases Idle, Transmitting and Resetting, and the
dispatcher of one tick. -/

namespace Sys2Proof.Machine

/-! ## Phase Idle -/

/-- I.CLK (R141). -/
def execIClk (s : State) : Host.Outcome State Fault Refusal :=
  .next (s.observed { s with clk := some s.cfg.clkIdleLevel, sub := .assertReset })

/-- I.RST (R142). -/
def execIRst (s : State) : Host.Outcome State Fault Refusal :=
  .next (s.observed
    { s.clearRstPending with
      rst := some s.cfg.rstStep2Level, sub := .assertClockIdle, phase := .transmitting })

/-- I.SKIP (R143). -/
def execISkip (s : State) : Host.Outcome State Fault Refusal :=
  .next { s with phase := .transmitting }

/-! ## Phase Transmitting, with no byte pending -/

/-- T.WAIT (R145). -/
def execTWait (s : State) : Host.Outcome State Fault Refusal := .next s

/-- T.RSTGO (R146); `resetReq` is not cleared here (decision D7). -/
def execTRstgo (s : State) : Host.Outcome State Fault Refusal :=
  .next { s with phase := .resetting }

/-! ## Phase Resetting -/

/-- What both reset-assert cycles do: `CLK` High, `RST` at its assert level, the pending condition marked (R147, R148). -/
def assertCycle (s : State) : State :=
  { s.setRstPending with clk := some .high, rst := some Config.rstAssertLevel }

/-- R.HOLD, which consumes the request (R147). -/
def execRHold (s : State) : Host.Outcome State Fault Refusal :=
  .next (s.observed (assertCycle s).clearResetReq)

/-- R.EXIT, which returns to phase Idle (R148). -/
def execRExit (s : State) : Host.Outcome State Fault Refusal :=
  .next (s.observed { assertCycle s with phase := .idle })

/-! ## The dispatcher -/

/-- TICK: the tests in the order of R140, then the one micro-operation they select. -/
def execTick (s : State) : Host.Outcome State Fault Refusal :=
  match s.phase with
  | .idle =>
    if s.rstPending then
      match s.sub with
      | .assertClockIdle => execIClk s
      | .assertReset => execIRst s
    else execISkip s
  | .transmitting =>
    if s.ready then
      match s.halfPhase with
      | .dataSetup => execTSetup s
      | .clockPulse => execTPulse s
    else if s.resetReq then execTRstgo s
    else execTWait s
  | .resetting =>
    if s.resetReq then execRHold s else execRExit s

end Sys2Proof.Machine
end

