-- ==== Sys2Proof/Machine/HostOps.lean ====
section
/-! DEFINITION. The operations of the HOST agent (42_host_handshake.md): SUB in its three spellings, POLL, WAIT, RSTREQ. -/

namespace Sys2Proof.Machine

/-- The effect of one micro-step of SUB (R170, R171), and its place among those done. -/
def State.subStep (s : State) : SubStep → State
  | .driveDc c => { s with dc := some (s.cfg.dcLevel c), subDone := [.driveDc c] }
  | .writeValue v => { s with value := v, subDone := s.subDone ++ [.writeValue v] }
  | .writeKind c => { s with isCommand := c, subDone := s.subDone ++ [.writeKind c] }
  | .publish => { s.setReady with subDone := [] }

/-- Whether a micro-step follows those done: `DC` first, then the value and the kind in either order, then the publish, all of one
kind (R68 item 1, R171, decision D30). -/
def SubStep.follows : List SubStep → SubStep → Bool
  | [], .driveDc _ => true
  | [.driveDc _], .writeValue _ => true
  | [.driveDc c], .writeKind k => k == c
  | [.driveDc c, .writeValue _], .writeKind k => k == c
  | [.driveDc _, .writeKind _], .writeValue _ => true
  | [.driveDc c, .writeValue _, .writeKind k], .publish => k == c
  | [.driveDc c, .writeKind k, .writeValue _], .publish => k == c
  | _, _ => false

/-- The four micro-steps of SUB, in R171's order. -/
def subSteps (c : Bool) (v : Byte) : List SubStep :=
  [.driveDc c, .writeValue v, .writeKind c, .publish]

/-- `submitByte(v, c)`: on an empty slot the four micro-steps as one atomic step, as R171 permits (log entry 7); on a full slot
the host is outside the contract (R172). -/
def submit (c : Bool) (v : Byte) (s : State) : Host.Outcome State Fault Refusal :=
  if s.ready then violate .reentrant else .next ((subSteps c v).foldl State.subStep s)

/-- One micro-step of a SUB written out; the host owns the slot only while it is empty (R24, R172), and the software that implements
SUB owes the order of the writes (R71), so a micro-step out of it is refused by name (log entry 7). -/
def execSubStep (m : SubStep) (s : State) : Host.Outcome State Fault Refusal :=
  if s.ready then violate .reentrant
  else if SubStep.follows s.subDone m then .next (s.subStep m)
  else .refused (.subStepOutOfOrder m)

/-- SUB (R170). -/
def execSub (c : Bool) (v : Byte) (s : State) : Host.Outcome State Fault Refusal := submit c v s

/-- SUB.C (R170). -/
def execSubC (v : Byte) (s : State) : Host.Outcome State Fault Refusal := submit true v s

/-- SUB.D (R170). -/
def execSubD (v : Byte) (s : State) : Host.Outcome State Fault Refusal := submit false v s

/-- POLL: the host reads `slot.ready` once (R173). -/
def execPoll (s : State) : Host.Outcome State Fault Refusal :=
  .next { s with lastPoll := some s.ready }

/-- The host word of WAIT (R94). -/
def waitLine : HostLine := .word 0x3000

/-- WAIT: passes on an empty slot and changes nothing; on a full one the host stays at the WAIT, which is all that happens
(R174, decision D27). The fetch runs it only where it passes (log entry 11). -/
def execWait (s : State) : Host.Outcome State Fault Refusal :=
  if s.ready then .next { s with host := waitLine :: s.host } else .next s

/-- RSTREQ (R176). -/
def execRstreq (s : State) : Host.Outcome State Fault Refusal := .next s.setResetReq

end Sys2Proof.Machine
end

