-- ==== Sys2Proof/Machine/Payload.lean ====
section
/-! DEFINITION. The command bytes of format P (30_encoding.md R97). To the block a payload byte is opaque: the instruction is the
host's submission of that byte with `isCommand = true`, by the operation SUB shares (R97, R170; log entry 8). What the display
does with it is out of scope (00_scope.md R5). -/

namespace Sys2Proof.Machine

/-- The host submits a command byte. -/
def submitCommand (b : Byte) (s : State) : Host.Outcome State Fault Refusal := submit true b s

/-- CMD.SWRESET (R97). -/
def execCmdSwreset (s : State) : Host.Outcome State Fault Refusal := submitCommand 0xE2 s

/-- CMD.A2 (R97). -/
def execCmdA2 (s : State) : Host.Outcome State Fault Refusal := submitCommand 0xA2 s

/-- CMD.A0 (R97). -/
def execCmdA0 (s : State) : Host.Outcome State Fault Refusal := submitCommand 0xA0 s

/-- CMD.C8 (R97). -/
def execCmdC8 (s : State) : Host.Outcome State Fault Refusal := submitCommand 0xC8 s

/-- CMD.24 (R97). -/
def execCmd24 (s : State) : Host.Outcome State Fault Refusal := submitCommand 0x24 s

/-- CMD.CONTRAST (R97). -/
def execCmdContrast (s : State) : Host.Outcome State Fault Refusal := submitCommand 0x81 s

/-- CMD.2F (R97). -/
def execCmd2F (s : State) : Host.Outcome State Fault Refusal := submitCommand 0x2F s

/-- CMD.40 (R97). -/
def execCmd40 (s : State) : Host.Outcome State Fault Refusal := submitCommand 0x40 s

/-- CMD.AF (R97). -/
def execCmdAF (s : State) : Host.Outcome State Fault Refusal := submitCommand 0xAF s

/-- CMD.PAGE: the byte `0xB0 | pageIndex` (R97, R98). -/
def execCmdPage (pageIndex : Nat) (s : State) : Host.Outcome State Fault Refusal :=
  submitCommand (pageSelectByte pageIndex) s

/-- CMD.COLHI0 (R97). -/
def execCmdColhi0 (s : State) : Host.Outcome State Fault Refusal := submitCommand 0x10 s

/-- CMD.COLLO0 (R97). -/
def execCmdCollo0 (s : State) : Host.Outcome State Fault Refusal := submitCommand 0x00 s

/-- CMD.RELEASE (R97). -/
def execCmdRelease (s : State) : Host.Outcome State Fault Refusal := submitCommand 0xEE s

end Sys2Proof.Machine
end

