-- ==== Sys2Proof/Machine/Dispatch.lean ====
section
/-! DEFINITION. One arm per instruction. -/

namespace Sys2Proof.Machine

def exec (i : Instr) (s : State) : Host.Outcome State Fault Refusal :=
  match i with
  | .iClk => Sys2Proof.Machine.execIClk s
  | .iRst => Sys2Proof.Machine.execIRst s
  | .iSkip => Sys2Proof.Machine.execISkip s
  | .tSetup => Sys2Proof.Machine.execTSetup s
  | .tPulse => Sys2Proof.Machine.execTPulse s
  | .tWait => Sys2Proof.Machine.execTWait s
  | .tRstgo => Sys2Proof.Machine.execTRstgo s
  | .rHold => Sys2Proof.Machine.execRHold s
  | .rExit => Sys2Proof.Machine.execRExit s
  | .tick => Sys2Proof.Machine.execTick s
  | .sub c v => Sys2Proof.Machine.execSub c v s
  | .subC v => Sys2Proof.Machine.execSubC v s
  | .subD v => Sys2Proof.Machine.execSubD v s
  | .poll => Sys2Proof.Machine.execPoll s
  | .wait => Sys2Proof.Machine.execWait s
  | .rstreq => Sys2Proof.Machine.execRstreq s
  | .cmdSwreset => Sys2Proof.Machine.execCmdSwreset s
  | .cmdA2 => Sys2Proof.Machine.execCmdA2 s
  | .cmdA0 => Sys2Proof.Machine.execCmdA0 s
  | .cmdC8 => Sys2Proof.Machine.execCmdC8 s
  | .cmd24 => Sys2Proof.Machine.execCmd24 s
  | .cmdContrast => Sys2Proof.Machine.execCmdContrast s
  | .cmd2F => Sys2Proof.Machine.execCmd2F s
  | .cmd40 => Sys2Proof.Machine.execCmd40 s
  | .cmdAF => Sys2Proof.Machine.execCmdAF s
  | .cmdPage pageIndex => Sys2Proof.Machine.execCmdPage pageIndex s
  | .cmdColhi0 => Sys2Proof.Machine.execCmdColhi0 s
  | .cmdCollo0 => Sys2Proof.Machine.execCmdCollo0 s
  | .cmdRelease => Sys2Proof.Machine.execCmdRelease s

end Sys2Proof.Machine
end

