-- ==== Sys2Proof/Machine/Bus.lean ====
section
/-! DEFINITION. The three-register binding for a bus-attached host (20_memory.md R67, decision D4). -/

namespace Sys2Proof.Machine

/-- What one bus access does. -/
inductive BusEffect where
  /-- It performs a host operation. -/
  | op (i : Instr)
  /-- It performs POLL and returns `zext_32(slot.ready)`. -/
  | status
  /-- A read that returns zero. -/
  | zero
  /-- A write that does nothing. -/
  | nothing
  /-- It is outside the binding. -/
  | outside
  deriving DecidableEq, Repr

/-- The binding's table (R67): `TXDATA` at `0x0`, `STATUS` at `0x4`, `CTRL` at `0x8`, full-width accesses only. -/
def BusAccess.effect : BusAccess → BusEffect
  | .write offset width data =>
    if width = 4 then
      if offset = 0x0 then .op (.sub (data.getLsbD 8) (data.extractLsb' 0 8))
      else if offset = 0x4 then .nothing
      else if offset = 0x8 then (if data.getLsbD 0 then .op .rstreq else .nothing)
      else .outside
    else .outside
  | .read offset width =>
    if width = 4 then
      if offset = 0x0 then .zero
      else if offset = 0x4 then .status
      else if offset = 0x8 then .zero
      else .outside
    else .outside

end Sys2Proof.Machine
end

