-- ==== Sys2Proof/Machine/PixelBuffer.lean ====
section
/-! DEFINITION. The Pixel Buffer operations of the host software (43_host_sequences.md R204 to R207): "pure in-memory mutations of
the Pixel Buffer with no side effects on the wire". -/

namespace Sys2Proof.Machine

/-- The byte `buf[p][x]` (R204). -/
def State.column (s : State) (p x : Nat) : Byte := s.buf.read (s.cfg.cellAddress p x)

/-- The pixel `(x, y)`: bit `y % 8` of `buf[y / 8][x]` (R204). -/
def State.pixel (s : State) (x y : Nat) : Bool := (s.column (pageOfRow y) x).getLsbD (bitOfRow y)

/-- A column byte with one bit switched on or off (R205). -/
def withPixelBit (b : Byte) (k : Nat) (on : Bool) : Byte :=
  if on then b ||| (1#8 <<< k) else b &&& ~~~(1#8 <<< k)

/-- SETPX (R205); outside the buffer the host left the contract (decision D24). -/
def setPixel (x y : Nat) (on : Bool) (s : State) : Host.Outcome State Fault Refusal :=
  if s.cfg.pixelOk x y then
    .next { s with
      buf := s.buf.write (s.cfg.cellAddress (pageOfRow y) x)
        (withPixelBit (s.column (pageOfRow y) x) (bitOfRow y) on) }
  else violate .coordinates

/-- CLRBUF (R206): every byte is `0x00`, what an unlisted address reads as. -/
def clearBuffer (s : State) : Host.Outcome State Fault Refusal := .next { s with buf := [] }

/-- BLIT (R207): five whole column bytes overwritten (decision D25); outside the buffer the host left the contract. -/
def blitGlyph (x page : Nat) (g : Glyph) (s : State) : Host.Outcome State Fault Refusal :=
  if s.cfg.blitOk x page then
    .next { s with buf := s.buf.writeMany (s.cfg.cellAddress page x) g.toList }
  else violate .coordinates

end Sys2Proof.Machine
end

