-- ==== Sys2Proof/Machine/HostSequences.lean ====
section
/-! DEFINITION. The host-side sequences (43_host_sequences.md R201 to R203, 30_encoding.md R102): what each pseudo-instruction
expands to. -/

namespace Sys2Proof.Machine

/-- INIT (R201). -/
def initLines (c : Config) : List HostLine :=
  [ .subb true 0xE2, .delay c.swresetDelayTicks, .subb true 0xA2, .subb true 0xA0, .subb true 0xC8, .subb true 0x24,
    .subb true 0x81, .subb true Config.contrastInit, .subb true 0x2F, .subb true 0x40, .subb true 0xAF ]

/-- One page of FRAME: page select, column address reset, then every column byte, ascending (R202). -/
def framePage (s : State) (p : Nat) : List HostLine :=
  [.subb true (pageSelectByte p), .subb true 0x10, .subb true 0x00] ++
    (List.range s.cfg.cols).map (fun x => .subb false (s.column p x))

/-- FRAME (R202): every page, ascending, then the release byte once. -/
def frameLines (s : State) : List HostLine :=
  (List.range s.cfg.pages).flatMap (framePage s) ++ [.subb true 0xEE]

/-- CONTRAST (R203), for a value in range. -/
def contrastLines (v : Byte) : List HostLine := [.subb true 0x81, .subb true v]

/-- The host words a line is written as (R101, R102); none for a line that has no host word. -/
def HostLine.words : HostLine → List HostWord
  | .word w => [w]
  | .subb c v => [subWord c v, 0x3000]
  | _ => []

end Sys2Proof.Machine
end

