-- ==== Sys2Proof/Machine/Fetch.lean ====
section
/-! DEFINITION. Which agent moves, and what it does (00_scope.md R11, 30_encoding.md R101). The block fetches no instruction: a tick
is selected by the state word (R95), a host operation by the host's pending program. The HOST agent moves while it has a line and
is not held at a WAIT; otherwise the TICK agent does (log entries 5 and 11). -/

namespace Sys2Proof.Machine

/-- What the next step is: an instruction run on a state, or a host line that is no instruction, done at once. -/
inductive Fetched where
  | run (i : Instr) (s : State)
  | done (o : Host.Outcome State Fault Refusal)

/-- A TICK step: the micro-operation the state word selects (R140, R95). -/
def fetchTick (s : State) : Fetched :=
  match decodeState s.stateWord with
  | some i => .run i s
  | none => .done (.refused (.notAStateWord s.stateWord))

/-- One bus access by the host (R67). -/
def fetchBus (a : BusAccess) (s : State) : Fetched :=
  match a.effect with
  | .op i => .run i s
  | .status => .run .poll { s with busData := some ((BitVec.ofBool s.ready).setWidth 32) }
  | .zero => .done (.next { s with busData := some 0 })
  | .nothing => .done (.next s)
  | .outside => .done (.refused (.busOutsideBinding a))

/-- The host's lines put in front of what it has still to do. -/
def State.prepend (s : State) (ls : List HostLine) : State := { s with host := ls ++ s.host }

/-- One line of the host's program, already taken off it. -/
def fetchLine (s : State) : HostLine → Fetched
  | .word w => match decodeHost w with
    | some i => .run i s
    | none => .done (.refused (.reservedHostWord w))
  | .command b => .run (decodePayload b) s
  | .bus a => fetchBus a s
  | .subStep m => .done (execSubStep m s)
  | .subb c v => .run (if c then .subC v else .subD v) (s.prepend [waitLine])
  | .delay 0 => .done (.next s)
  | .delay (n + 1) => fetchTick (s.prepend [.delay n])
  | .init => .done (.next (s.prepend (initLines s.cfg)))
  | .frame => .done (.next (s.prepend (frameLines s)))
  | .contrast v =>
    if contrastOk v then .done (.next (s.prepend (contrastLines v)))
    else .done (.refused (.contrastOutOfRange v))
  | .setPx x y on => .done (setPixel x y on s)
  | .clrBuf => .done (clearBuffer s)
  | .blit x page g => .done (blitGlyph x page g s)

/-- Whether the host is held: its next operation is WAIT and the slot is full (R174, decision D27). -/
def State.heldAt (s : State) (l : HostLine) : Bool := s.ready && l == waitLine

/-- The next step of the machine. -/
def fetch (s : State) : Fetched :=
  match s.host with
  | [] => fetchTick s
  | l :: rest => if s.heldAt l then fetchTick s else fetchLine { s with host := rest } l

/-- The state in which the next step is the one a code word selects: a host word or a command byte as the host's only pending
line; a state word in the state it packs, with nothing for the host to do (log entry 5). -/
def State.withCodeWord (s : State) : CodeWord → State
  | .state w => { s.withStateWord w with host := [] }
  | .host w => { s with host := [.word w] }
  | .payload b => { s with host := [.command b] }

end Sys2Proof.Machine
end

