-- ==== Sys2Proof/Safety.lean ====
section
/-! DEFINITION. What counts as a safe run, and the invariants of 41_link_fsm.md R152 and of the observation of 10_state.md R36. -/

namespace Sys2Proof.Machine

/-- `k` steps of the machine, by the host interface's own run, stopping at the first fault or refusal. -/
def runSteps (k : Nat) (s : State) : Host.Outcome State Fault Refusal := Host.Core.run Sys2Proof.core k s

/-- A step that is no fault: the host has not left the contract in it. -/
def StepKeepsContract (s : State) : Prop := ∀ r, step s ≠ .fault r

/-- The levels R152 is stated for: `CLK_IDLE_LEVEL` and `RST_STEP2_LEVEL` at their default, High. -/
def DefaultLevels (c : Config) : Prop := c.clkIdleLevel = .high ∧ c.rstStep2Level = .high

/-- The invariants of R152, items 1 to 7, for a machine with the default levels. -/
structure LinkInv (s : State) : Prop where
  /-- The condition the items are stated under. -/
  levels : DefaultLevels s.cfg
  /-- Item 1. -/
  subStart : s.phase ≠ .idle → s.sub = .assertClockIdle
  /-- Item 2. -/
  emptySlotAtStart : s.ready = false → s.bitIndex = 0#3 ∧ s.halfPhase = .dataSetup
  /-- Item 3. -/
  otherPhaseAtStart : s.phase ≠ .transmitting → s.bitIndex = 0#3 ∧ s.halfPhase = .dataSetup
  /-- Item 4. -/
  idlePending : s.phase = .idle → s.rstPending = true
  /-- Item 5. -/
  transmittingReleased : s.phase = .transmitting → s.rstPending = false ∧ s.rst = some .high
  /-- Item 6. -/
  resettingForm : s.phase = .resetting →
    (s.rstPending = false ∧ s.resetReq = true ∧ s.rst = some .high) ∨ (s.rstPending = true ∧ s.rst = some .low)
  /-- Item 7, the clock line: no value before the first tick only. -/
  clkUndriven : s.clk = none → s.phase = .idle ∧ s.sub = .assertClockIdle ∧ s.rst = none
  /-- Item 7, the reset line: no value before the second tick only. -/
  rstUndriven : s.rst = none → s.phase = .idle
  /-- Item 7: afterwards `CLK` is High exactly in the setup half. -/
  clkHigh : s.clk ≠ none → (s.clk = some .high ↔ s.halfPhase = .dataSetup)
  /-- Item 7: afterwards `CLK` is Low exactly in the pulse half. -/
  clkLow : s.clk = some .low ↔ s.halfPhase = .clockPulse
  /-- In phase Idle the reset line is not High: it is undriven at power-up and Low after a pass (R154, R261). -/
  idleNotReleased : s.phase = .idle → s.rst ≠ some .high

/-- The bits of the byte in the slot that the receiver has sampled so far, most significant first (R61). -/
def sentBits (s : State) : List (Option Level) :=
  (List.range s.bitIndex.toNat).map (fun i => some (Level.ofBit (s.value.getLsbD (7 - i))))

/-- What the receiver holds inside a byte, and what is on the data line (R91, R124, R125). -/
structure ReceiverInv (s : State) : Prop where
  /-- The receiver has sampled exactly the bits already pulsed. -/
  samples : s.rxSamples = sentBits s
  /-- Between setup and pulse the data line holds the selected bit. -/
  dataHeld : s.halfPhase = .clockPulse → s.dat = some (Level.ofBit (selectedBit s.value s.bitIndex))

/-- While a byte is in the slot `DC` is at the level its kind selects (R22, R92). -/
def KindOnLine (s : State) : Prop := s.ready = true → s.dc = some (s.cfg.dcLevel s.isCommand)

/-- The lines driven at initialisation only are at their level (R32, R92, R242). -/
def StaticLines (s : State) : Prop :=
  s.cs = some s.cfg.csActiveLevel ∧ s.regen = if s.cfg.hasRegen then some s.cfg.regenActiveLevel else none

/-- Every listed byte of the Pixel Buffer is inside it (R204). -/
def BufferInside (s : State) : Prop := ∀ c ∈ s.buf, c.1 < s.cfg.pages * s.cfg.cols

/-- What a micro-step of SUB has written is still there (R171). -/
def State.subWritten (s : State) : SubStep → Bool
  | .driveDc c => s.dc == some (s.cfg.dcLevel c)
  | .writeValue v => s.value == v
  | .writeKind c => s.isCommand == c
  | .publish => true

/-- What the SUB in progress has written so far is in place: nobody else writes the slot or `DC` before its publish (R24, R68). -/
def SubWritesInPlace (s : State) : Prop := ∀ m ∈ s.subDone, s.subWritten m = true

/-- The byte and kind of a SUB whose writes are all done. -/
def byteWritten : List SubStep → Option (Bool × Byte)
  | [.driveDc c, .writeValue v, .writeKind _] => some (c, v)
  | [.driveDc c, .writeKind _, .writeValue v] => some (c, v)
  | _ => none

/-- The kind and byte that the host's next line submits, if it submits one: a SUB word, a command byte, a write of `TXDATA`, a SUBB,
or the publish of a SUB written out (R170, R97, R67, R175, R171). -/
def hostSubmits (s : State) : Option (Bool × Byte) :=
  match s.host with
  | .word w :: _ => if w &&& 0xFE00 = 0x1000 then some (w.getLsbD 8, w.extractLsb' 0 8) else none
  | .command b :: _ => some (true, b)
  | .bus (.write off width w) :: _ => if off = 0x0 ∧ width = 4 then some (w.getLsbD 8, w.extractLsb' 0 8) else none
  | .subb c v :: _ => some (c, v)
  | .subStep .publish :: _ => byteWritten s.subDone
  | _ => none

/-- Whether a line is a tick: the TICK marker, or a DELAY with ticks left (R101, R201). -/
def HostLine.isTick : HostLine → Bool
  | .word w => w == 0x0000
  | .delay n => n != 0
  | _ => false

/-- Whether the next step is a TICK step: the host has nothing to do, is held at a WAIT, or is at a line that is a tick (R11). -/
def stepTicks (s : State) : Bool :=
  match s.host with
  | [] => true
  | l :: _ => s.heldAt l || l.isTick

/-- How many of the next `k` steps are TICK steps. -/
def tickCount : Nat → State → Nat
  | 0, _ => 0
  | k + 1, s => (if stepTicks s then 1 else 0) + (match step s with
    | .next t => tickCount k t
    | _ => 0)

/-- `n` ticks one after the other. -/
def ticks : Nat → State → Host.Outcome State Fault Refusal
  | 0, s => .next s
  | n + 1, s => match exec .tick s with
    | .next t => ticks n t
    | o => o

/-- The resting state: phase Transmitting, nothing pending, the Bit Clocker at its start (R145). -/
def Resting (s : State) : Prop :=
  s.phase = .transmitting ∧ s.ready = false ∧ s.resetReq = false

/-- While the slot is full only the TICK agent moves: the host has nothing to do, or is at a WAIT (R174). -/
def HostWaits (s : State) : Prop := s.host = [] ∨ ∃ rest, s.host = waitLine :: rest

/-- The 16 entries of the wire log for one byte, most significant bit first (R91). -/
def waveform (b : Byte) : List (Option Level × Option Level) :=
  (List.range 8).flatMap fun i =>
    [(some (Level.ofBit (b.getLsbD (7 - i))), some .low), (some (Level.ofBit (b.getLsbD (7 - i))), some .high)]

/-- The ticks from a publish to the completion tick, by the state at the publish (R153). -/
def ticksToCompletion (s : State) : Nat :=
  match s.phase with
  | .transmitting => 16
  | .idle => (match s.sub with | .assertReset => 17 | .assertClockIdle => 18)
  | .resetting => if s.resetReq then 20 else 19

/-- What the receiver logs for a byte of a kind (R36, R175). -/
def received (c : Config) (m : Bool × Byte) : Option Byte × Option Level := (some m.2, some (c.dcLevel m.1))

/-- What a host does that sends by SUBB only: SUBB, POLL, WAIT, RSTREQ, and the ticks that fall between them (R175, R101). -/
def HostLine.blocking : HostLine → Bool
  | .subb _ _ => true
  | .word w => w == 0x0000 || w == 0x2000 || w == 0x3000 || w == 0x4000
  | _ => false

/-- The bytes such a host sends, in order, with their kinds. -/
def blockingBytes (ls : List HostLine) : List (Bool × Byte) :=
  ls.filterMap fun
    | .subb c v => some (c, v)
    | _ => none

/-- The ten bytes of INIT, all commands (R201). -/
def initBytes : List (Bool × Byte) :=
  [0xE2, 0xA2, 0xA0, 0xC8, 0x24, 0x81, 0x30, 0x2F, 0x40, 0xAF].map fun b => (true, b)

/-- The bytes of FRAME for a buffer given column by column (R202). -/
def frameBytes (c : Config) (buf : Nat → Nat → Byte) : List (Bool × Byte) :=
  (List.range c.pages).flatMap (fun p =>
    [(true, 0xB0 ||| BitVec.ofNat 8 p), (true, 0x10), (true, 0x00)] ++
      (List.range c.cols).map (fun x => (false, buf p x))) ++ [(true, 0xEE)]

end Sys2Proof.Machine
end

