-- ==== Sys2Proof/Certificates/Slice0/Obligations.lean ====
section
/-! DEFINITION. The statements about the model. A state's `observed` is the receiver of 10_state.md R36 watching the lines; a record
update names every field an operation writes, so it is the operation's frame as well. -/

open Sys2Proof Sys2Proof.Machine

/-! ## Encodings -/

/-- Every state word with a phase code other than `0b11` matches exactly one row of R95's table, and the others match none. -/
def Obligations.StateWordsMatchExactlyOneRow : Prop :=
  ∀ w : StateWord,
    (stateRows.filter (·.matches w)).length = (if w.extractLsb' 8 2 = 0b11#2 then 0 else 1) ∧
    (decodeState w = none ↔ w.extractLsb' 8 2 = 0b11#2)

/-- The packed state word of R41, field by field. -/
def Obligations.StateWordPacksTheFields : Prop :=
  ∀ s : State,
    s.stateWord.extractLsb' 8 2 = s.phase.code ∧ s.stateWord.getLsbD 7 = s.sub.code ∧
    s.stateWord.getLsbD 6 = s.rstPending ∧ s.stateWord.getLsbD 5 = s.ready ∧ s.stateWord.getLsbD 4 = s.resetReq ∧
    s.stateWord.getLsbD 3 = s.halfPhase.code ∧ s.stateWord.extractLsb' 0 3 = s.bitIndex

/-- Setting a state's fields from a legal state word gives a state that packs to that word, in which a tick runs the
micro-operation the word decodes to. -/
def Obligations.StateWordUnpacksAndRuns : Prop :=
  ∀ (s : State) (w : StateWord) (i : Instr), decodeState w = some i →
    (s.withStateWord w).stateWord = w ∧
    step { s.withStateWord w with host := [] } = exec i { s.withStateWord w with host := [] }

/-- Decoding the code word of a well-formed instruction gives the instruction back, in the spelling that carries its kind. -/
def Obligations.DecodeOfEncodeIsTheInstruction : Prop :=
  ∀ i : Instr, i.wf = true → decode (encode i) = .ok i.canonical

/-- The spelling the decoder answers runs as the instruction does: `SUB.C v` is SUB with `c = 1`, `SUB.D v` with `c = 0`. -/
def Obligations.CanonicalSpellingRunsAlike : Prop :=
  ∀ (i : Instr) (s : State), exec i.canonical s = exec i s

/-- A host word that decodes is the code word of the instruction it decodes to: no word has two meanings and no bit is dropped. -/
def Obligations.EncodeOfDecodeIsTheHostWord : Prop :=
  ∀ (w : HostWord) (i : Instr), decodeHost w = some i → encode i = .host w

/-- A host word that matches no row of R94 is refused by name, in every state, and never treated as a no-op (R99). -/
def Obligations.ReservedHostWordsAreRefused : Prop :=
  ∀ (s : State) (w : HostWord) (rest : List HostLine), s.host = .word w :: rest →
    w &&& 0xFFFF ≠ 0x0000 → w &&& 0xFE00 ≠ 0x1000 → w &&& 0xFFFF ≠ 0x2000 → w &&& 0xFFFF ≠ 0x3000 →
    w &&& 0xFFFF ≠ 0x4000 → step s = .refused (.reservedHostWord w)

/-- Words written out from R94, R95 and R97 decode to the instructions they stand for. -/
def Obligations.SampleWordsDecode : Prop :=
  decode (.state 0b0001000000) = .ok .iClk ∧ decode (.state 0b0011000000) = .ok .iRst ∧
  decode (.state 0b0100101000) = .ok .tPulse ∧ decode (.state 0b0100110111) = .ok .tSetup ∧
  decode (.state 0b1001010000) = .ok .rHold ∧
  decode (.host 0b0001000111100010) = .ok (.subC 0xE2) ∧ decode (.host 0b0001000010100101) = .ok (.subD 0xA5) ∧
  decode (.host 0b0100000000000000) = .ok .rstreq ∧
  decode (.payload 0b11101110) = .ok .cmdRelease ∧ decode (.payload 0b10110111) = .ok (.cmdPage 7)

/-! ## Micro-operations: encoding, result and frame -/

/-- I.CLK (R141). -/
def Obligations.IClkDrivesTheClockIdle : Prop :=
  (∀ w, decodeState w = some .iClk ↔ w &&& 0x3C0 = 0x040) ∧
  ∀ s : State, exec .iClk s =
    .next (s.observed { s with clk := some s.cfg.clkIdleLevel, sub := .assertReset })

/-- I.RST (R142). -/
def Obligations.IRstReleasesAndStartsTransmitting : Prop :=
  (∀ w, decodeState w = some .iRst ↔ w &&& 0x3C0 = 0x0C0) ∧
  ∀ s : State, exec .iRst s =
    .next (s.observed { s with
      rst := some s.cfg.rstStep2Level, sub := .assertClockIdle, rstPending := false, phase := .transmitting })

/-- I.SKIP (R143). -/
def Obligations.ISkipOnlyMovesToTransmitting : Prop :=
  (∀ w, decodeState w = some .iSkip ↔ w &&& 0x340 = 0x000) ∧
  ∀ s : State, exec .iSkip s = .next { s with phase := .transmitting }

/-- T.SETUP (R121): the bit `7 - bitIndex` on `DAT`, `CLK` Low, one wire entry, and `ByteInProgress`. -/
def Obligations.TSetupPutsTheBitOnTheLine : Prop :=
  (∀ w, decodeState w = some .tSetup ↔ w &&& 0x328 = 0x120) ∧
  ∀ s : State, (setupHalf s).2 = .byteInProgress ∧
    exec .tSetup s = .next { s.observed { s with
        dat := some (Level.ofBit (s.value.getLsbD (7 - s.bitIndex.toNat))), clk := some .low, halfPhase := .clockPulse } with
      wire := s.wire ++ [(some (Level.ofBit (s.value.getLsbD (7 - s.bitIndex.toNat))), some .low)] }

/-- T.PULSE (R122): `CLK` High with the data unchanged, one wire entry; the next bit, or after bit 7 the start state with the slot
emptied and `ByteComplete`. -/
def Obligations.TPulseLatchesAndAdvances : Prop :=
  (∀ w, decodeState w = some .tPulse ↔ w &&& 0x328 = 0x128) ∧
  ∀ s : State,
    (s.bitIndex ≠ 7#3 → (pulseHalf s).2 = .byteInProgress ∧
      exec .tPulse s = .next { s.observed { s with
          clk := some .high, halfPhase := .dataSetup, bitIndex := s.bitIndex + 1#3 } with
        wire := s.wire ++ [(s.dat, some .high)] }) ∧
    (s.bitIndex = 7#3 → (pulseHalf s).2 = .byteComplete ∧
      exec .tPulse s = .next { s.observed { s with
          clk := some .high, halfPhase := .dataSetup, bitIndex := 0#3, ready := false } with
        wire := s.wire ++ [(s.dat, some .high)] })

/-- T.WAIT (R145). -/
def Obligations.TWaitChangesNothing : Prop :=
  (∀ w, decodeState w = some .tWait ↔ w &&& 0x330 = 0x100) ∧ ∀ s : State, exec .tWait s = .next s

/-- T.RSTGO (R146): only the phase changes; the request stays set. -/
def Obligations.TRstgoOnlyEntersResetting : Prop :=
  (∀ w, decodeState w = some .tRstgo ↔ w &&& 0x330 = 0x110) ∧
  ∀ s : State, exec .tRstgo s = .next { s with phase := .resetting }

/-- R.HOLD (R147). -/
def Obligations.RHoldAssertsAndConsumes : Prop :=
  (∀ w, decodeState w = some .rHold ↔ w &&& 0x310 = 0x210) ∧
  ∀ s : State, exec .rHold s =
    .next (s.observed { s with clk := some .high, rst := some .low, rstPending := true, resetReq := false })

/-- R.EXIT (R148). -/
def Obligations.RExitAssertsAndReturnsToIdle : Prop :=
  (∀ w, decodeState w = some .rExit ↔ w &&& 0x310 = 0x200) ∧
  ∀ s : State, exec .rExit s =
    .next (s.observed { s with clk := some .high, rst := some .low, rstPending := true, phase := .idle })

/-- TICK (R140): in every state the micro-operation that the state word decodes to is the one R140's ordered tests select, the tick
is that micro-operation, and it answers a next state. -/
def Obligations.TickDispatchesInOrder : Prop :=
  decodeHost 0x0000 = some .tick ∧
  ∀ s : State, ∃ i t, decodeState s.stateWord = some i ∧ exec .tick s = exec i s ∧ exec .tick s = .next t ∧
    (s.phase = .idle → s.rstPending = true → s.sub = .assertClockIdle → i = .iClk) ∧
    (s.phase = .idle → s.rstPending = true → s.sub = .assertReset → i = .iRst) ∧
    (s.phase = .idle → s.rstPending = false → i = .iSkip) ∧
    (s.phase = .transmitting → s.ready = true → s.halfPhase = .dataSetup → i = .tSetup) ∧
    (s.phase = .transmitting → s.ready = true → s.halfPhase = .clockPulse → i = .tPulse) ∧
    (s.phase = .transmitting → s.ready = false → s.resetReq = true → i = .tRstgo) ∧
    (s.phase = .transmitting → s.ready = false → s.resetReq = false → i = .tWait) ∧
    (s.phase = .resetting → s.resetReq = true → i = .rHold) ∧
    (s.phase = .resetting → s.resetReq = false → i = .rExit)

/-- A receiver that shifts the eight samples of a byte into the low end of its register, most significant bit first, holds the
byte. -/
def Obligations.ReceiverReassemblesTheByte : Prop :=
  ∀ b : Byte, byteOfSamples ((List.range 8).map fun i => some (Level.ofBit (b.getLsbD (7 - i)))) = some b

/-! ## Host operations -/

/-- SUB in its three spellings, on an empty slot (R170): its word, and every field it writes. The clause on `subDone`
is the model's own and no part of R170: the field is the SUB that the host has begun to write out, and a whole SUB leaves none begun
(log entry 7). -/
def Obligations.SubPublishesTheByte : Prop :=
  (∀ w : HostWord, w &&& 0xFE00 = 0x1000 → decodeHost w = some (Instr.sub (w.getLsbD 8) (w.extractLsb' 0 8)).canonical) ∧
  ∀ (s : State) (c : Bool) (v : Byte), s.ready = false →
    exec (.sub c v) s = .next { s with
      dc := some (if c then s.cfg.dcCmdLevel else s.cfg.dcCmdLevel.other), value := v, isCommand := c, ready := true, subDone := [] } ∧
    exec (.subC v) s = exec (.sub true v) s ∧ exec (.subD v) s = exec (.sub false v) s

/-- A submission on a full slot, in any spelling, is reported as the contract violation and nothing is computed (R172; the fault as the
end of the run is log entry 18). That a command byte is such a submission is the model's reading, log entry 8. -/
def Obligations.SubOnFullSlotIsAViolation : Prop :=
  ∀ (s : State) (c : Bool) (v : Byte) (p : Nat), s.ready = true →
    ∀ i ∈ [Instr.sub c v, .subC v, .subD v, .cmdSwreset, .cmdA2, .cmdA0, .cmdC8, .cmd24, .cmdContrast, .cmd2F, .cmd40, .cmdAF,
      .cmdPage p, .cmdColhi0, .cmdCollo0, .cmdRelease],
      exec i s = .fault (.contractViolation .reentrant)

/-- The command bytes of R97: each instruction submits its row's byte as a command (the model's reading, log entry 8); a page index up
to 15 makes the byte `0b1011` above the index (R98). -/
def Obligations.CommandBytesAreSubmittedAsCommands : Prop :=
  ∀ s : State, s.ready = false →
    (∀ m ∈ [(Instr.cmdSwreset, (0xE2 : Byte)), (.cmdA2, 0xA2), (.cmdA0, 0xA0), (.cmdC8, 0xC8), (.cmd24, 0x24),
        (.cmdContrast, 0x81), (.cmd2F, 0x2F), (.cmd40, 0x40), (.cmdAF, 0xAF), (.cmdColhi0, 0x10), (.cmdCollo0, 0x00),
        (.cmdRelease, 0xEE)],
      exec m.1 s = .next { s with
        dc := some s.cfg.dcCmdLevel, value := m.2, isCommand := true, ready := true, subDone := [] }) ∧
    ∀ p : Nat, exec (.cmdPage p) s = .next { s with
        dc := some s.cfg.dcCmdLevel, value := 0xB0 ||| BitVec.ofNat 8 p, isCommand := true, ready := true, subDone := [] } ∧
      (p ≤ 15 → 0xB0 ||| BitVec.ofNat 8 p = 0b1011#4 ++ BitVec.ofNat 4 p)

/-- POLL (R173): the host gets `slot.ready`, and nothing else changes. -/
def Obligations.PollReturnsReady : Prop :=
  decodeHost 0x2000 = some .poll ∧ ∀ s : State, exec .poll s = .next { s with lastPoll := some s.ready }

/-- WAIT (R174): on an empty slot it passes and changes nothing; while the slot is full the host stays at it and the step that
happens is a tick. -/
def Obligations.WaitPassesOnlyOnAnEmptySlot : Prop :=
  decodeHost 0x3000 = some .wait ∧
  (∀ s : State, s.ready = false → exec .wait s = .next s) ∧
  ∀ (s : State) (rest : List HostLine), s.host = .word 0x3000 :: rest →
    (s.ready = false → step s = .next { s with host := rest }) ∧
    (s.ready = true → ∃ t, step s = .next t ∧ step s = exec .tick s ∧ t.host = s.host)

/-- RSTREQ (R176): in every state it sets `resetReq` and nothing else; issued again it has no effect. -/
def Obligations.RstreqOnlySetsTheRequest : Prop :=
  decodeHost 0x4000 = some .rstreq ∧
  ∀ s : State, exec .rstreq s = .next { s with resetReq := true } ∧ (s.resetReq = true → exec .rstreq s = .next s)

/-- No host operation touches what the TICK agent owns, clears a flag, or drives a line other than `DC` (R181). -/
def Obligations.HostOperationsLeaveTheTickAgentsState : Prop :=
  ∀ (s t : State) (c : Bool) (v : Byte) (p : Nat),
    ∀ i ∈ [Instr.sub c v, .subC v, .subD v, .poll, .wait, .rstreq, .cmdSwreset, .cmdA2, .cmdA0, .cmdC8, .cmd24, .cmdContrast,
      .cmd2F, .cmd40, .cmdAF, .cmdPage p, .cmdColhi0, .cmdCollo0, .cmdRelease],
      exec i s = .next t →
        t.phase = s.phase ∧ t.sub = s.sub ∧ t.rstPending = s.rstPending ∧ t.bitIndex = s.bitIndex ∧
        t.halfPhase = s.halfPhase ∧ t.clk = s.clk ∧ t.dat = s.dat ∧ t.rst = s.rst ∧ t.cs = s.cs ∧ t.regen = s.regen ∧
        t.wire = s.wire ∧ t.rx = s.rx ∧ t.rxSamples = s.rxSamples ∧ t.buf = s.buf ∧ t.cfg = s.cfg ∧
        (s.ready = true → t.ready = true) ∧ (s.resetReq = true → t.resetReq = true)

/-- SUB is its four micro-steps: run one after the other, the value and the kind in either order, they are the atomic SUB; a micro-step
out of that order is refused by name (log entry 7); and a tick between two of them decodes and acts as it would have before (R171). -/
def Obligations.SubMicroStepsComposeToSub : Prop :=
  (∀ (s : State) (c : Bool) (v : Byte) (rest : List HostLine), s.ready = false → s.subDone = [] →
    ∀ ms ∈ [[SubStep.driveDc c, .writeValue v, .writeKind c, .publish], [.driveDc c, .writeKind c, .writeValue v, .publish]],
      runSteps 4 { s with host := ms.map HostLine.subStep ++ rest } = exec (.sub c v) { s with host := rest }) ∧
  (∀ (s : State) (m : SubStep) (rest : List HostLine), s.host = .subStep m :: rest → s.ready = false →
    SubStep.follows s.subDone m = false → step s = .refused (.subStepOutOfOrder m)) ∧
  ∀ (s t : State) (m : SubStep), LinkInv s → s.ready = false → m ≠ .publish → exec .tick s = .next t →
    (s.subStep m).stateWord = s.stateWord ∧ exec .tick (s.subStep m) = .next (t.subStep m)

/-! ## Steps -/

/-- When the host has nothing to do, or is held at a WAIT, the step is the micro-operation the state word decodes to. -/
def Obligations.StepRunsTheSelectedMicroOperation : Prop :=
  ∀ (s : State) (i : Instr), (s.host = [] ∨ (s.ready = true ∧ ∃ rest, s.host = .word 0x3000 :: rest)) →
    decodeState s.stateWord = some i → step s = exec i s

/-- When the host's next line is a host word and the host is not held, the step is the word's instruction, run with the line taken
off. -/
def Obligations.StepRunsTheDecodedHostWord : Prop :=
  ∀ (s : State) (w : HostWord) (rest : List HostLine) (i : Instr), s.host = .word w :: rest →
    ¬(s.ready = true ∧ w = 0x3000) → decode (.host w) = .ok i → step s = exec i { s with host := rest }

/-- When the host's next line is a command byte, the step is the byte's instruction, and whatever the byte, with a row of R97 or without
one, it is submitted as a command. That a command byte is a submission is the model's reading, log entry 8. -/
def Obligations.StepRunsTheDecodedCommandByte : Prop :=
  ∀ (s : State) (b : Byte) (rest : List HostLine) (i : Instr), s.host = .command b :: rest → decode (.payload b) = .ok i →
    step s = exec i { s with host := rest } ∧ step s = exec (.sub true b) { s with host := rest }

/-- The register binding (R67): what each access does, and that every other one is refused. R67 and U11 refuse other offsets and
narrower or misaligned accesses; that a wider one is refused too is the model's choice, log entry 17. -/
def Obligations.BusAccessesFollowTheBinding : Prop :=
  ∀ (s : State) (a : BusAccess) (rest : List HostLine), s.host = .bus a :: rest →
    (∀ w, a = .write 0x0 4 w → step s = exec (.sub (w.getLsbD 8) (w.extractLsb' 0 8)) { s with host := rest }) ∧
    (a = .read 0x4 4 → step s = .next { s with
      host := rest, lastPoll := some s.ready, busData := some (if s.ready then 1 else 0) }) ∧
    (∀ w, a = .write 0x8 4 w → step s = .next { s with host := rest, resetReq := s.resetReq || w.getLsbD 0 }) ∧
    (∀ w, a = .write 0x4 4 w → step s = .next { s with host := rest }) ∧
    (a = .read 0x0 4 ∨ a = .read 0x8 4 → step s = .next { s with host := rest, busData := some 0 }) ∧
    (∀ off n w, (a = .write off n w ∨ a = .read off n) → (n ≠ 4 ∨ (off ≠ 0x0 ∧ off ≠ 0x4 ∧ off ≠ 0x8)) →
      step s = .refused (.busOutsideBinding a))

/-! ## The initialisation state -/

/-- The initialisation state of R38, for every configuration, and of the machine itself. -/
def Obligations.ResetIsTheInitialisationState : Prop :=
  ∀ c : Config,
    let s := State.resetWith c
    s.ready = false ∧ s.resetReq = false ∧ s.phase = .idle ∧ s.sub = .assertClockIdle ∧ s.rstPending = c.initRstPending ∧
    s.bitIndex = 0#3 ∧ s.halfPhase = .dataSetup ∧ s.clk = none ∧ s.dat = none ∧ s.rst = none ∧ s.dc = none ∧
    s.cs = some c.csActiveLevel ∧ s.subDone = [] ∧ (c.hasRegen = true → s.regen = some c.regenActiveLevel) ∧ s.wire = [] ∧ s.rx = [] ∧
    State.reset = State.resetWith Config.machine ∧ Config.machine.isDefault ∧ Config.machine.wf

/-- The power-up sequence (R261): whatever the host does, the first two ticks are I.CLK and I.RST, and no byte is begun before them; with
`INIT_RST_PENDING = false` the first is I.SKIP (R143). The last two clauses speak of every run from the initialisation state with any host
lines, by the number of ticks among its steps; the two before them of the host that does nothing. -/
def Obligations.PowerUpTakesTwoTicks : Prop :=
  (∀ c : Config,
    (c.initRstPending = true → ∃ t u, runSteps 1 (State.resetWith c) = .next t ∧
      t.clk = some c.clkIdleLevel ∧ t.rst = none ∧ t.phase = .idle ∧ t.sub = .assertReset ∧
      runSteps 2 (State.resetWith c) = .next u ∧
      u.clk = some c.clkIdleLevel ∧ u.rst = some c.rstStep2Level ∧ u.phase = .transmitting ∧ u.rstPending = false ∧
      u.dat = none ∧ u.dc = none) ∧
    (c.initRstPending = false → ∃ t, runSteps 1 (State.resetWith c) = .next t ∧
      t.phase = .transmitting ∧ t.clk = none ∧ t.rst = none)) ∧
  ∀ (c : Config) (ls : List HostLine) (k : Nat) (t : State),
    let s := { State.resetWith c with host := ls }
    runSteps k s = .next t →
    (c.initRstPending = true →
      (tickCount k s = 0 → decodeState t.stateWord = some .iClk ∧ t.clk = none ∧ t.rst = none ∧ t.wire = []) ∧
      (tickCount k s = 1 → decodeState t.stateWord = some .iRst ∧ t.clk = some c.clkIdleLevel ∧ t.rst = none ∧ t.wire = []) ∧
      (tickCount k s = 2 → t.phase = .transmitting ∧ t.rstPending = false ∧ t.sub = .assertClockIdle ∧
        t.clk = some c.clkIdleLevel ∧ t.rst = some c.rstStep2Level ∧ t.dat = none ∧ t.wire = [])) ∧
    (c.initRstPending = false →
      (tickCount k s = 0 → decodeState t.stateWord = some .iSkip) ∧
      (tickCount k s = 1 → t.phase = .transmitting ∧ t.clk = none ∧ t.rst = none ∧ t.wire = []))

/-! ## Invariants -/

/-- The invariants hold in the initialisation state of every configuration with the default levels and `INIT_RST_PENDING`, and of
the machine. The condition on a SUB written out and the buffer's canonical form are about the model's own fields (log entries 7 and 10). -/
def Obligations.InvariantsHoldAtReset : Prop :=
  (∀ c : Config, DefaultLevels c → c.initRstPending = true →
    LinkInv (State.resetWith c) ∧ ReceiverInv (State.resetWith c) ∧ KindOnLine (State.resetWith c) ∧
    StaticLines (State.resetWith c) ∧ SubWritesInPlace (State.resetWith c) ∧
    (State.resetWith c).buf.wf = true ∧ BufferInside (State.resetWith c)) ∧
  LinkInv State.reset ∧ ReceiverInv State.reset

/-- R152, items 1 to 7: every step keeps them, whatever the host does. -/
def Obligations.LinkInvariantIsKept : Prop :=
  ∀ s t : State, LinkInv s → step s = .next t → LinkInv t

/-- What the receiver has sampled stays the part of the byte already pulsed, and the data line the selected bit. -/
def Obligations.ReceiverInvariantIsKept : Prop :=
  ∀ s t : State, LinkInv s → ReceiverInv s → step s = .next t → ReceiverInv t

/-- While a byte is in the slot, `DC` is at the level of its kind (R22, R92); what a SUB written out has written so far stays in place
until its publish. It holds for every host because the model refuses a micro-step out of order, and the record of the micro-steps done
is the model's own field (log entry 7). -/
def Obligations.KindStaysOnTheLine : Prop :=
  ∀ s t : State, SubWritesInPlace s → KindOnLine s → step s = .next t → SubWritesInPlace t ∧ KindOnLine t

/-- Chip-select and the regulator line are never touched by a step (R32, R242), nor are the parameters, which R7 and R13 keep out of
the block's state and the model holds in a record of its own state (log entry 2). -/
def Obligations.StaticLinesAreNeverDriven : Prop :=
  ∀ s t : State, step s = .next t → t.cs = s.cs ∧ t.regen = s.regen ∧ t.cfg = s.cfg ∧ (StaticLines s → StaticLines t)

/-- The Pixel Buffer keeps the model's own form of it (a canonical list at flat addresses, log entry 10), stays inside its dimensions
where R7's bounds on them hold, and a tick never touches it. -/
def Obligations.PixelBufferKeepsItsForm : Prop :=
  ∀ s t : State, step s = .next t →
    (s.buf.wf = true → t.buf.wf = true) ∧ (s.cfg.wf → BufferInside s → BufferInside t) ∧
    ∀ u, exec .tick s = .next u → u.buf = s.buf

/-- R152, item 8: `CLK` goes from Low to High exactly in a T.PULSE, and from High to Low exactly in a T.SETUP. -/
def Obligations.ClockEdgesAreSetupAndPulse : Prop :=
  ∀ s t : State, LinkInv s →
    (step s = .next t → (s.clk = some .low ∧ t.clk = some .high ↔ s.halfPhase = .clockPulse ∧ t.halfPhase = .dataSetup) ∧
      (s.clk = some .high ∧ t.clk = some .low ↔ s.halfPhase = .dataSetup ∧ t.halfPhase = .clockPulse)) ∧
    (exec .tick s = .next t →
      (s.clk = some .low ∧ t.clk = some .high ↔ decodeState s.stateWord = some .tPulse) ∧
      (s.clk = some .high ∧ t.clk = some .low ↔ decodeState s.stateWord = some .tSetup))

/-! ## Control transfer and ownership -/

/-- The phase moves only along Idle, Transmitting, Resetting, Idle, and only where R151 says. -/
def Obligations.PhaseFollowsTheTransitionTable : Prop :=
  ∀ s t : State, step s = .next t → t.phase ≠ s.phase →
    (s.phase = .idle ∧ t.phase = .transmitting ∧ (s.rstPending = false ∨ s.sub = .assertReset)) ∨
    (s.phase = .transmitting ∧ t.phase = .resetting ∧ s.ready = false ∧ s.resetReq = true ∧ t.resetReq = true) ∨
    (s.phase = .resetting ∧ t.phase = .idle ∧ s.resetReq = false ∧ t.rstPending = true ∧ t.rst = some .low)

/-- The slot's discipline (R23, R24): while it is full no step changes the byte, its kind or `DC`; it is emptied by the completion
tick only, which is the pulse of bit 7 in phase Transmitting. -/
def Obligations.FullSlotIsLeftAloneUntilCompletion : Prop :=
  ∀ s t : State, step s = .next t → s.ready = true →
    t.value = s.value ∧ t.isCommand = s.isCommand ∧ t.dc = s.dc ∧
    (t.ready = false → s.phase = .transmitting ∧ s.bitIndex = 7#3 ∧ s.halfPhase = .clockPulse)

/-- A tick writes none of the host's state: not the byte, its kind, `DC`, the static lines, the buffer or the host's program; it
never sets `ready` or `resetReq`. And it is the only move that changes the TICK agent's position and lines (R151, R237): a TICK step is
exec of TICK, the host's lines apart, and every other step leaves them as they were. -/
def Obligations.TickWritesOnlyItsOwnState : Prop :=
  (∀ s t : State, exec .tick s = .next t →
    t.value = s.value ∧ t.isCommand = s.isCommand ∧ t.dc = s.dc ∧ t.cs = s.cs ∧ t.regen = s.regen ∧ t.buf = s.buf ∧
    t.host = s.host ∧ t.lastPoll = s.lastPoll ∧ t.busData = s.busData ∧ t.subDone = s.subDone ∧
    (t.ready = true → s.ready = true) ∧ (t.resetReq = true → s.resetReq = true)) ∧
  (∀ s : State, stepTicks s = true → ∃ ls, step s = exec .tick { s with host := ls }) ∧
  ∀ s t : State, stepTicks s = false → step s = .next t →
    t.phase = s.phase ∧ t.sub = s.sub ∧ t.rstPending = s.rstPending ∧ t.bitIndex = s.bitIndex ∧ t.halfPhase = s.halfPhase ∧
    t.clk = s.clk ∧ t.dat = s.dat ∧ t.rst = s.rst

/-- A reset request is never lost: the only step that makes it false is a tick whose state word decodes to R.HOLD, with the reset line
Low after it (R25, R147, R156). -/
def Obligations.ResetRequestIsNeverLost : Prop :=
  ∀ s t : State, step s = .next t → s.resetReq = true → t.resetReq = false →
    stepTicks s = true ∧ decodeState s.stateWord = some .rHold ∧ (∃ ls, step s = exec .rHold { s with host := ls }) ∧
    s.phase = .resetting ∧ t.phase = .resetting ∧ t.rst = some .low ∧ t.rstPending = true

/-- A reset request has no influence on a byte (R144, R149): in phase Transmitting with a full slot a tick does the same with
and without it, leaves it as it is, and stays in the phase. -/
def Obligations.ResetRequestIsDeferredPastTheByte : Prop :=
  ∀ (s t : State) (b : Bool), s.phase = .transmitting → s.ready = true → exec .tick s = .next t →
    exec .tick { s with resetReq := b } = .next { t with resetReq := b } ∧
    t.phase = .transmitting ∧ t.resetReq = s.resetReq ∧ t.rst = s.rst

/-! ## Bytes -/

/-- Sixteen ticks per byte (R123, R124): the wire log grows by the waveform, the receiver by the byte with the level of `DC`, and
only the sixteenth tick empties the slot. -/
def Obligations.SixteenTicksSendTheByte : Prop :=
  ∀ s : State, LinkInv s → ReceiverInv s → HostWaits s → s.phase = .transmitting → s.ready = true →
    s.bitIndex = 0#3 → s.halfPhase = .dataSetup →
    (∃ t, runSteps 16 s = .next t ∧
      t = { s with
        ready := false, clk := some .high, dat := some (Level.ofBit (s.value.getLsbD 0)),
        wire := s.wire ++ waveform s.value, rx := s.rx ++ [(some s.value, s.dc)] }) ∧
    ∀ k, k < 16 → ∃ u, runSteps k s = .next u ∧ u.ready = true ∧ u.rx = s.rx

/-- The latency of a byte (R153): published in any reachable position, with no request after, it completes after exactly the
number of ticks of R153's table, and the receiver has it. -/
def Obligations.ByteCompletesWithinItsLatency : Prop :=
  ∀ s : State, LinkInv s → ReceiverInv s → HostWaits s → s.ready = true → s.bitIndex = 0#3 → s.halfPhase = .dataSetup →
    (∃ t, runSteps (ticksToCompletion s) s = .next t ∧ t.ready = false ∧ t.phase = .transmitting ∧
      t.wire = s.wire ++ waveform s.value ∧ t.rx = s.rx ++ [(some s.value, s.dc)] ∧ t.host = s.host) ∧
    ∀ k, k < ticksToCompletion s → ∃ u, runSteps k s = .next u ∧ u.ready = true

/-- Every byte received is the byte in the slot, whole, with the level of `DC`, and it is received in the step that empties the
slot (R68, R124). -/
def Obligations.OnlySubmittedBytesAreReceived : Prop :=
  ∀ s t : State, LinkInv s → ReceiverInv s → step s = .next t →
    (t.rx = s.rx ∧ (s.ready = true → t.ready = true)) ∨
    (t.rx = s.rx ++ [(some s.value, s.dc)] ∧ s.ready = true ∧ t.ready = false)

/-- A host that sends by SUBB only, with any number of ticks, polls and reset requests between its bytes (R175, R178): from any state
of the invariants with an empty slot it never leaves the contract, and the receiver gets every byte, whole, once and in order. -/
def Obligations.BlockingHostLosesNoByte : Prop :=
  ∀ (s : State) (ls rest : List HostLine), LinkInv s → ReceiverInv s → s.ready = false →
    (∀ l ∈ ls, l.blocking = true) → s.host = ls ++ rest →
    ∃ k t, runSteps k s = .next t ∧ t.host = rest ∧ t.ready = false ∧
      t.rx = s.rx ++ (blockingBytes ls).map (received s.cfg)

/-! ## Resets -/

/-- The timeline of a minimal reset pass (R154): from the resting state with a request, `RST` is High after tick 1, Low after ticks
2, 3 and 4 and High after tick 5, with `CLK` High throughout. -/
def Obligations.MinimalResetPassTimeline : Prop :=
  ∀ s : State, LinkInv s → s.host = [] → s.phase = .transmitting → s.ready = false → s.resetReq = true →
    ∃ t1 t2 t3 t4 t5, step s = .next t1 ∧ step t1 = .next t2 ∧ step t2 = .next t3 ∧ step t3 = .next t4 ∧ step t4 = .next t5 ∧
      (t1.phase = .resetting ∧ t1.resetReq = true ∧ t1.rst = some .high) ∧
      (t2.phase = .resetting ∧ t2.resetReq = false ∧ t2.rst = some .low) ∧
      (t3.phase = .idle ∧ t3.sub = .assertClockIdle ∧ t3.rst = some .low) ∧
      (t4.phase = .idle ∧ t4.sub = .assertReset ∧ t4.rst = some .low) ∧
      (t5.phase = .transmitting ∧ t5.rstPending = false ∧ t5.resetReq = false ∧ t5.rst = some .high) ∧
      ∀ u ∈ [t1, t2, t3, t4, t5], u.clk = some .high ∧ u.wire = s.wire ∧ u.rx = s.rx

/-- Coalescing (R150): after a reset-assert cycle, any number of requests in one gap before the next tick costs one more R.HOLD, none
costs none, and then R.EXIT ends the pass. -/
def Obligations.RequestsInOneGapCoalesce : Prop :=
  ∀ (s : State) (n : Nat), LinkInv s → s.phase = .resetting → s.rstPending = true → s.resetReq = false →
    s.host = List.replicate n (.word 0x4000) ++ [.word 0x0000] →
    ∃ t, runSteps (n + 1) s = .next t ∧ t.host = [] ∧ t.rst = some .low ∧ t.resetReq = false ∧
      (n = 0 → t.phase = .idle) ∧
      (0 < n → t.phase = .resetting ∧ ∃ u, step t = .next u ∧ u.phase = .idle ∧ u.rst = some .low)

/-- The two orders of a request and a byte (R177): with no tick between them the byte starts at the next tick and the reset waits;
with one the reset is under way and the byte waits. -/
def Obligations.RequestThenByteHasTwoOrders : Prop :=
  ∀ (s : State) (c : Bool) (v : Byte), LinkInv s → s.phase = .transmitting → s.ready = false → s.resetReq = false →
    (s.host = [.word 0x4000, .word (subWord c v), .word 0x0000] →
      ∃ t, runSteps 3 s = .next t ∧ t.phase = .transmitting ∧ t.halfPhase = .clockPulse ∧
        t.resetReq = true ∧ t.rst = some .high ∧ t.dat = some (Level.ofBit (v.getLsbD 7))) ∧
    (s.host = [.word 0x4000, .word 0x0000, .word (subWord c v), .word 0x0000] →
      ∃ t, runSteps 4 s = .next t ∧ t.phase = .resetting ∧ t.ready = true ∧ t.value = v ∧
        t.halfPhase = .dataSetup ∧ t.rst = some .low ∧ t.dat = s.dat)

/-! ## The Pixel Buffer and the host sequences -/

/-- SETPX (R205): the step at its line is it, on the line's operands (one step for a line is the model's, log entries 5 and 14);
inside the buffer it sets exactly the pixel it names and leaves every other pixel and everything else alone; outside it is the
contract violation. -/
def Obligations.SetPixelChangesOnePixel : Prop :=
  (∀ (s : State) (x y : Nat) (on : Bool) (rest : List HostLine), s.host = .setPx x y on :: rest →
    step s = setPixel x y on { s with host := rest }) ∧
  ∀ (s : State) (x y : Nat) (on : Bool),
    (x < s.cfg.cols → y < s.cfg.rows → s.buf.wf = true → ∃ t, setPixel x y on s = .next t ∧ t = { s with buf := t.buf } ∧
      t.pixel x y = on ∧
      (∀ x' y', x' < s.cfg.cols → (x', y') ≠ (x, y) → t.pixel x' y' = s.pixel x' y') ∧
      ∀ a, a ≠ (y / 8) * s.cfg.cols + x → t.buf.read a = s.buf.read a) ∧
    (¬(x < s.cfg.cols ∧ y < s.cfg.rows) → setPixel x y on s = .fault (.contractViolation .coordinates))

/-- CLRBUF (R206): the step at its line is it (log entries 5 and 14); every byte of the buffer is `0x00`, every pixel off, and nothing else changes. -/
def Obligations.ClearBufferTurnsEveryPixelOff : Prop :=
  (∀ (s : State) (rest : List HostLine), s.host = .clrBuf :: rest → step s = clearBuffer { s with host := rest }) ∧
  ∀ s : State, ∃ t, clearBuffer s = .next t ∧ t = { s with buf := t.buf } ∧
    (∀ p x, t.column p x = 0x00) ∧ ∀ x y, t.pixel x y = false

/-- BLIT (R207): the step at its line is it, on the line's operands (log entries 5 and 14); inside the buffer the five column bytes are
the glyph's, whole, and every other byte is unchanged; outside it is the contract violation. -/
def Obligations.BlitCopiesFiveColumns : Prop :=
  (∀ (s : State) (x page : Nat) (g : Glyph) (rest : List HostLine), s.host = .blit x page g :: rest →
    step s = blitGlyph x page g { s with host := rest }) ∧
  ∀ (s : State) (x page : Nat) (g : Glyph),
    (page < s.cfg.pages → x + 5 ≤ s.cfg.cols → s.buf.wf = true → ∃ t, blitGlyph x page g s = .next t ∧ t = { s with buf := t.buf } ∧
      (∀ i, (h : i < 5) → t.column page (x + i) = g[i]) ∧
      ∀ a, (a < page * s.cfg.cols + x ∨ page * s.cfg.cols + x + 5 ≤ a) → t.buf.read a = s.buf.read a) ∧
    (¬(page < s.cfg.pages ∧ x + 5 ≤ s.cfg.cols) → blitGlyph x page g s = .fault (.contractViolation .coordinates))

/-- CONTRAST (R203): in range it is the two submissions, above `0x3F` it is refused by name. -/
def Obligations.ContrastSendsTwoCommandsInRange : Prop :=
  ∀ (s : State) (v : Byte) (rest : List HostLine), s.host = .contrast v :: rest →
    (v.toNat ≤ 0x3F → step s = .next { s with host := [.subb true 0x81, .subb true v] ++ rest } ∧
      (contrastLines v).flatMap HostLine.words = [0x1181, 0x3000, 0x1100 ||| v.setWidth 16, 0x3000]) ∧
    (0x3F < v.toNat → step s = .refused (.contrastOutOfRange v))

/-- INIT and DELAY (R201, R269): a DELAY line lets its ticks pass. From any state of the invariants with an empty slot INIT sends `0xE2`;
after its completion `T_SWRESET_DELAY_TICKS` ticks pass with the slot empty and nothing received; then come the other nine bytes, so
that the receiver has the ten command bytes in order. That the delay is no longer than that is log entry 14. -/
def Obligations.InitSendsTheTenCommands : Prop :=
  (∀ (s : State) (n : Nat) (rest : List HostLine), s.host = .delay n :: rest →
    runSteps (n + 1) s = ticks n { s with host := rest }) ∧
  ∀ (s : State) (rest : List HostLine), LinkInv s → ReceiverInv s → s.ready = false → s.host = .init :: rest →
    let others := (initBytes.drop 1).map (fun m => HostLine.subb m.1 m.2) ++ rest
    let n := s.cfg.swresetDelayTicks
    ∃ j k t d u, runSteps j s = .next t ∧ t.host = .delay n :: others ∧ t.ready = false ∧
      t.rx = s.rx ++ [received s.cfg (true, 0xE2)] ∧
      runSteps (n + 1) t = .next d ∧ ticks n { t with host := others } = .next d ∧ d.host = others ∧ d.ready = false ∧ d.rx = t.rx ∧
      runSteps k d = .next u ∧ runSteps (j + (n + 1) + k) s = .next u ∧ u.host = rest ∧ u.ready = false ∧
      u.rx = s.rx ++ initBytes.map (received s.cfg)

/-- FRAME (R202): from any state of the invariants with an empty slot, the receiver gets the frame's bytes in order. -/
def Obligations.FrameSendsTheBuffer : Prop :=
  ∀ (s : State) (rest : List HostLine), LinkInv s → ReceiverInv s → s.ready = false → s.host = .frame :: rest →
    ∃ k t, runSteps k s = .next t ∧ t.host = rest ∧ t.ready = false ∧ t.buf = s.buf ∧
      t.rx = s.rx ++ (frameBytes s.cfg s.column).map (received s.cfg)

/-- The source's end-to-end scenario (R210): from the initialisation state, CLRBUF, SETPX 0,0,on and FRAME make the receiver hold
exactly the stream of R202 with the first column byte `0x01` and all others `0x00`. -/
def Obligations.EndToEndScenarioStream : Prop :=
  ∀ c : Config, DefaultLevels c → c.initRstPending = true → c.wf →
    ∃ k t, runSteps k { State.resetWith c with host := [.clrBuf, .setPx 0 0 true, .frame] } = .next t ∧
      t.host = [] ∧ t.ready = false ∧
      t.rx = (frameBytes c (fun p x => if p = 0 ∧ x = 0 then 0x01 else 0x00)).map (received c)

/-! ## The publish -/

/-- The publish comes after the writes it publishes (R68, item 1): a step that makes the slot full is at a line that submits a byte, and
the slot then holds exactly that byte and kind, with `DC` at its level. R24 and R71 leave the order to the host's software; it holds
here whatever the host because the model refuses a micro-step out of order and keeps those done in its own field `subDone` (log entry 7).
That a command byte line submits its byte is log entry 8. -/
def Obligations.OnlyAWholeSubmissionFillsTheSlot : Prop :=
  ∀ s t : State, SubWritesInPlace s → step s = .next t → s.ready = false → t.ready = true →
    ∃ c v, hostSubmits s = some (c, v) ∧ t.value = v ∧ t.isCommand = c ∧ t.dc = some (t.cfg.dcLevel c) ∧ t.subDone = []
end

