-- ==== Sys2Proof/Laws/Memory.lean ====
section
/-! SUPPORT. The laws of the Pixel Buffer's memory: a read after a write, and the canonical form under every operation. -/

namespace Sys2Proof.Machine

@[simp] theorem Memory.read_nil (a : Nat) : Memory.read [] a = Memory.unlisted := rfl

theorem Memory.wf_cons {k : Nat} {v : Byte} {m : Memory} :
    Memory.wf ((k, v) :: m) = true ↔ v ≠ Memory.unlisted ∧ (∀ c ∈ m, k < c.1) ∧ Memory.wf m = true := by
  simp [Memory.wf, and_assoc]

/-- An address below every listed one reads as unlisted. -/
theorem Memory.read_below {m : Memory} {a : Nat} (h : ∀ c ∈ m, a < c.1) : m.read a = Memory.unlisted := by
  induction m with
  | nil => rfl
  | cons c m ih =>
    obtain ⟨k, v⟩ := c
    have hk : a < k := h (k, v) (by simp)
    simp [Memory.read, Nat.ne_of_lt hk, ih (fun c hc => h c (by simp [hc]))]

/-- The addresses listed after a write are the one written and those listed before. -/
theorem Memory.mem_write {m : Memory} {a : Nat} {b : Byte} {c : Host.Cell} (h : c ∈ m.write a b) : c.1 = a ∨ c ∈ m := by
  induction m with
  | nil =>
    simp only [Memory.write] at h
    split at h <;> simp_all
  | cons d m ih =>
    obtain ⟨k, v⟩ := d
    simp only [Memory.write] at h
    repeat' split at h
    all_goals simp only [List.mem_cons] at h ⊢
    · exact .inr h
    · rcases h with rfl | h
      · exact .inl rfl
      · exact .inr h
    · exact .inr (.inr h)
    · rcases h with rfl | h
      · exact .inl rfl
      · exact .inr (.inr h)
    · rcases h with h | h
      · exact .inr (.inl h)
      · exact (ih h).imp id .inr

theorem Memory.wf_write {m : Memory} (a : Nat) (b : Byte) (h : m.wf = true) : (m.write a b).wf = true := by
  induction m with
  | nil =>
    simp only [Memory.write]
    split <;> simp_all [Memory.wf]
  | cons d m ih =>
    obtain ⟨k, v⟩ := d
    obtain ⟨hv, hlt, hm⟩ := Memory.wf_cons.mp h
    simp only [Memory.write]
    repeat' split
    · exact h
    · next hak hb =>
      refine Memory.wf_cons.mpr ⟨hb, fun c hc => ?_, h⟩
      rcases List.mem_cons.mp hc with rfl | hc
      · exact hak
      · exact Nat.lt_trans hak (hlt c hc)
    · exact hm
    · next hak hb => subst hak; exact Memory.wf_cons.mpr ⟨hb, hlt, hm⟩
    · next hnlt hne =>
      refine Memory.wf_cons.mpr ⟨hv, fun c hc => ?_, ih hm⟩
      rcases Memory.mem_write hc with h | h
      · omega
      · exact hlt c h

theorem Memory.wf_writeMany {m : Memory} (a : Nat) (bs : List Byte) (h : m.wf = true) : (m.writeMany a bs).wf = true := by
  induction bs generalizing m a with
  | nil => exact h
  | cons b bs ih => exact ih (a + 1) (Memory.wf_write a b h)

theorem Memory.read_write_same {m : Memory} (a : Nat) (b : Byte) (h : m.wf = true) : (m.write a b).read a = b := by
  induction m with
  | nil =>
    simp only [Memory.write]
    split <;> simp_all [Memory.read]
  | cons d m ih =>
    obtain ⟨k, v⟩ := d
    obtain ⟨-, hlt, hm⟩ := Memory.wf_cons.mp h
    simp only [Memory.write]
    repeat' split
    · next hak hb =>
      rw [hb]
      refine Memory.read_below fun c hc => ?_
      rcases List.mem_cons.mp hc with rfl | hc
      · exact hak
      · exact Nat.lt_trans hak (hlt c hc)
    · simp [Memory.read]
    · next hak hb => subst hak; rw [hb]; exact Memory.read_below hlt
    · simp [Memory.read]
    · next hne => simp [Memory.read, hne, ih hm]

theorem Memory.read_write_other {m : Memory} {a a' : Nat} (b : Byte) (hne : a' ≠ a) : (m.write a b).read a' = m.read a' := by
  induction m with
  | nil =>
    simp only [Memory.write]
    split <;> simp [Memory.read, hne]
  | cons d m ih =>
    obtain ⟨k, v⟩ := d
    simp only [Memory.write]
    repeat' split
    all_goals simp_all [Memory.read]

theorem Memory.read_writeMany_outside {m : Memory} {a a' : Nat} {bs : List Byte} (h : a' < a ∨ a + bs.length ≤ a') :
    (m.writeMany a bs).read a' = m.read a' := by
  induction bs generalizing m a with
  | nil => rfl
  | cons b bs ih =>
    simp only [List.length_cons] at h
    rw [Memory.writeMany, ih (by omega), Memory.read_write_other b (by omega)]

theorem Memory.read_writeMany_inside {m : Memory} {a i : Nat} {bs : List Byte} (hm : m.wf = true) (hi : i < bs.length) :
    (m.writeMany a bs).read (a + i) = bs[i] := by
  induction bs generalizing m a i with
  | nil => simp at hi
  | cons b bs ih =>
    rw [Memory.writeMany]
    cases i with
    | zero => rw [Memory.read_writeMany_outside (by omega)]; exact Memory.read_write_same a b hm
    | succ i =>
      have := ih (a := a + 1) (Memory.wf_write a b hm) (i := i) (by simpa using hi)
      rw [show a + (i + 1) = a + 1 + i by omega, this]
      rfl

/-- The addresses listed after writing consecutive bytes. -/
theorem Memory.mem_writeMany {m : Memory} {a : Nat} {bs : List Byte} {c : Host.Cell} (h : c ∈ m.writeMany a bs) :
    (a ≤ c.1 ∧ c.1 < a + bs.length) ∨ c ∈ m := by
  induction bs generalizing m a with
  | nil => exact .inr h
  | cons b bs ih =>
    rcases ih h with h | h
    · simp only [List.length_cons]; exact .inl (by omega)
    · rcases Memory.mem_write h with h | h
      · simp only [List.length_cons]; exact .inl (by omega)
      · exact .inr h

end Sys2Proof.Machine
end

