-- ==== Sys2Proof/Laws/PerInstr.lean ====
section
/-! SUPPORT. The family EncodesItsRow: an instruction's code word agrees with its row of spec/opcode_table.json under the row's mask. -/

namespace Sys2Proof.Laws

/-- A code word as a number, bit 0 the least significant. -/
def wordNumber : CodeWord → Nat
  | .state w => w.toNat
  | .host w => w.toNat
  | .payload b => b.toNat

/-- The width, match and mask of an instruction's row of spec/opcode_table.json. -/
def tableRow : Instr → Nat × Nat × Nat
  | .iClk => (10, 0x040, 0x3C0)
  | .iRst => (10, 0x0C0, 0x3C0)
  | .iSkip => (10, 0x000, 0x340)
  | .tSetup => (10, 0x120, 0x328)
  | .tPulse => (10, 0x128, 0x328)
  | .tWait => (10, 0x100, 0x330)
  | .tRstgo => (10, 0x110, 0x330)
  | .rHold => (10, 0x210, 0x310)
  | .rExit => (10, 0x200, 0x310)
  | .tick => (16, 0x0000, 0xFFFF)
  | .sub _ _ => (16, 0x1000, 0xFE00)
  | .subC _ => (16, 0x1100, 0xFF00)
  | .subD _ => (16, 0x1000, 0xFF00)
  | .poll => (16, 0x2000, 0xFFFF)
  | .wait => (16, 0x3000, 0xFFFF)
  | .rstreq => (16, 0x4000, 0xFFFF)
  | .cmdSwreset => (8, 0xE2, 0xFF)
  | .cmdA2 => (8, 0xA2, 0xFF)
  | .cmdA0 => (8, 0xA0, 0xFF)
  | .cmdC8 => (8, 0xC8, 0xFF)
  | .cmd24 => (8, 0x24, 0xFF)
  | .cmdContrast => (8, 0x81, 0xFF)
  | .cmd2F => (8, 0x2F, 0xFF)
  | .cmd40 => (8, 0x40, 0xFF)
  | .cmdAF => (8, 0xAF, 0xFF)
  | .cmdPage _ => (8, 0xB0, 0xF0)
  | .cmdColhi0 => (8, 0x10, 0xFF)
  | .cmdCollo0 => (8, 0x00, 0xFF)
  | .cmdRelease => (8, 0xEE, 0xFF)

/-- A code word's width is its format's. -/
def wordWidth : CodeWord → Nat
  | .state _ => 10
  | .host _ => 16
  | .payload _ => 8

namespace EncodesItsRow

/-- The code word has the row's width and, under the row's mask, the row's bits. -/
def Statement (i : Instr) : Prop :=
  i.wf = true → wordWidth (encode i) = (tableRow i).1 ∧ wordNumber (encode i) &&& (tableRow i).2.2 = (tableRow i).2.1

theorem subWord_row : ∀ (c : Bool) (v : Byte), (subWord c v).toNat &&& 0xFE00 = 0x1000 := by decide

theorem subWord_kind_row : ∀ (c : Bool) (v : Byte), (subWord c v).toNat &&& 0xFF00 = if c then 0x1100 else 0x1000 := by decide

theorem pageSelectByte_row : ∀ p, p ≤ 15 → (pageSelectByte p).toNat &&& 0xF0 = 0xB0 := by decide

theorem iClk : Statement .iClk := fun _ => ⟨rfl, rfl⟩
theorem iRst : Statement .iRst := fun _ => ⟨rfl, rfl⟩
theorem iSkip : Statement .iSkip := fun _ => ⟨rfl, rfl⟩
theorem tSetup : Statement .tSetup := fun _ => ⟨rfl, rfl⟩
theorem tPulse : Statement .tPulse := fun _ => ⟨rfl, rfl⟩
theorem tWait : Statement .tWait := fun _ => ⟨rfl, rfl⟩
theorem tRstgo : Statement .tRstgo := fun _ => ⟨rfl, rfl⟩
theorem rHold : Statement .rHold := fun _ => ⟨rfl, rfl⟩
theorem rExit : Statement .rExit := fun _ => ⟨rfl, rfl⟩
theorem tick : Statement .tick := fun _ => ⟨rfl, rfl⟩
theorem sub (c : Bool) (v : Byte) : Statement (.sub c v) := fun _ => ⟨rfl, subWord_row c v⟩
theorem subC (v : Byte) : Statement (.subC v) := fun _ => ⟨rfl, subWord_kind_row true v⟩
theorem subD (v : Byte) : Statement (.subD v) := fun _ => ⟨rfl, subWord_kind_row false v⟩
theorem poll : Statement .poll := fun _ => ⟨rfl, rfl⟩
theorem wait : Statement .wait := fun _ => ⟨rfl, rfl⟩
theorem rstreq : Statement .rstreq := fun _ => ⟨rfl, rfl⟩
theorem cmdSwreset : Statement .cmdSwreset := fun _ => ⟨rfl, rfl⟩
theorem cmdA2 : Statement .cmdA2 := fun _ => ⟨rfl, rfl⟩
theorem cmdA0 : Statement .cmdA0 := fun _ => ⟨rfl, rfl⟩
theorem cmdC8 : Statement .cmdC8 := fun _ => ⟨rfl, rfl⟩
theorem cmd24 : Statement .cmd24 := fun _ => ⟨rfl, rfl⟩
theorem cmdContrast : Statement .cmdContrast := fun _ => ⟨rfl, rfl⟩
theorem cmd2F : Statement .cmd2F := fun _ => ⟨rfl, rfl⟩
theorem cmd40 : Statement .cmd40 := fun _ => ⟨rfl, rfl⟩
theorem cmdAF : Statement .cmdAF := fun _ => ⟨rfl, rfl⟩
theorem cmdPage (p : Nat) : Statement (.cmdPage p) :=
  fun h => ⟨rfl, pageSelectByte_row p (of_decide_eq_true h)⟩
theorem cmdColhi0 : Statement .cmdColhi0 := fun _ => ⟨rfl, rfl⟩
theorem cmdCollo0 : Statement .cmdCollo0 := fun _ => ⟨rfl, rfl⟩
theorem cmdRelease : Statement .cmdRelease := fun _ => ⟨rfl, rfl⟩

end EncodesItsRow

end Sys2Proof.Laws
end

