-- ==== Sys2Proof/Laws/PixelBuffer.lean ====
section
/-! SUPPORT. The laws of a pixel's place: the address of a column byte (43_host_sequences.md R204) and the bit of a row (R205). -/

namespace Sys2Proof.Machine

/-- A column byte inside the dimensions has an address inside the buffer. -/
theorem cellAddress_lt {c : Config} {p x : Nat} (hp : p < c.pages) (hx : x < c.cols) :
    c.cellAddress p x < c.pages * c.cols := by
  have h : (p + 1) * c.cols ≤ c.pages * c.cols := Nat.mul_le_mul_right _ hp
  rw [Nat.succ_mul] at h
  unfold Config.cellAddress
  omega

/-- Two column bytes inside a row's width with one address are one column byte. -/
theorem cellAddress_inj {c : Config} {p q x y : Nat} (hx : x < c.cols) (hy : y < c.cols)
    (h : c.cellAddress p x = c.cellAddress q y) : p = q ∧ x = y := by
  have key : ∀ p x, x < c.cols → c.cellAddress p x / c.cols = p := by
    intro p x hx
    rw [Config.cellAddress, Nat.mul_comm, Nat.mul_add_div (by omega), Nat.div_eq_of_lt hx, Nat.add_zero]
  have hpq : p = q := by rw [← key p x hx, h, key q y hy]
  subst hpq
  unfold Config.cellAddress at h
  exact ⟨rfl, by omega⟩

/-- The row of a pixel is inside the pages where `ROWS` is a multiple of 8. -/
theorem pageOfRow_lt {c : Config} {y : Nat} (h : c.wf) (hy : y < c.rows) : pageOfRow y < c.pages := by
  have := h.2.2.1
  simp only [Config.pages, pageOfRow]
  omega

/-- Switching a bit on or off makes it so. -/
theorem withPixelBit_same (b : Byte) {k : Nat} (hk : k < 8) (on : Bool) : (withPixelBit b k on).getLsbD k = on := by
  have : ∀ (b : Byte) (k : Fin 8) (on : Bool), (withPixelBit b k.val on).getLsbD k.val = on := by decide
  exact this b ⟨k, hk⟩ on

/-- Switching a bit leaves the others alone. -/
theorem withPixelBit_other (b : Byte) {k j : Nat} (hj : j < 8) (h : j ≠ k) (on : Bool) :
    (withPixelBit b k on).getLsbD j = b.getLsbD j := by
  cases on <;> simp [withPixelBit, hj] <;> intros <;> omega

end Sys2Proof.Machine
end

