-- ==== Sys2Proof/Laws/State.lean ====
section
/-! SUPPORT. One lemma per field per named update of the state, so that no later proof unfolds the update. The flag updates of
Machine/Flags.lean are simp definitions and need none. -/

namespace Sys2Proof.Machine

/-! ## The receiver's watch -/

@[simp] theorem observed_rxSamples (a b : State) : (a.observed b).rxSamples = nextSamples a b := rfl
@[simp] theorem observed_rx (a b : State) : (a.observed b).rx = nextRx a b := rfl
@[simp] theorem observed_cfg (a b : State) : (a.observed b).cfg = b.cfg := rfl
@[simp] theorem observed_value (a b : State) : (a.observed b).value = b.value := rfl
@[simp] theorem observed_isCommand (a b : State) : (a.observed b).isCommand = b.isCommand := rfl
@[simp] theorem observed_ready (a b : State) : (a.observed b).ready = b.ready := rfl
@[simp] theorem observed_resetReq (a b : State) : (a.observed b).resetReq = b.resetReq := rfl
@[simp] theorem observed_phase (a b : State) : (a.observed b).phase = b.phase := rfl
@[simp] theorem observed_sub (a b : State) : (a.observed b).sub = b.sub := rfl
@[simp] theorem observed_rstPending (a b : State) : (a.observed b).rstPending = b.rstPending := rfl
@[simp] theorem observed_bitIndex (a b : State) : (a.observed b).bitIndex = b.bitIndex := rfl
@[simp] theorem observed_halfPhase (a b : State) : (a.observed b).halfPhase = b.halfPhase := rfl
@[simp] theorem observed_clk (a b : State) : (a.observed b).clk = b.clk := rfl
@[simp] theorem observed_dat (a b : State) : (a.observed b).dat = b.dat := rfl
@[simp] theorem observed_rst (a b : State) : (a.observed b).rst = b.rst := rfl
@[simp] theorem observed_dc (a b : State) : (a.observed b).dc = b.dc := rfl
@[simp] theorem observed_cs (a b : State) : (a.observed b).cs = b.cs := rfl
@[simp] theorem observed_regen (a b : State) : (a.observed b).regen = b.regen := rfl
@[simp] theorem observed_wire (a b : State) : (a.observed b).wire = b.wire := rfl
@[simp] theorem observed_host (a b : State) : (a.observed b).host = b.host := rfl
@[simp] theorem observed_subDone (a b : State) : (a.observed b).subDone = b.subDone := rfl
@[simp] theorem observed_lastPoll (a b : State) : (a.observed b).lastPoll = b.lastPoll := rfl
@[simp] theorem observed_busData (a b : State) : (a.observed b).busData = b.busData := rfl
@[simp] theorem observed_buf (a b : State) : (a.observed b).buf = b.buf := rfl

/-! ## The wire log -/

@[simp] theorem emitWire_wire (s : State) : s.emitWire.wire = s.wire ++ [(s.dat, s.clk)] := rfl
@[simp] theorem emitWire_cfg (s : State) : s.emitWire.cfg = s.cfg := rfl
@[simp] theorem emitWire_value (s : State) : s.emitWire.value = s.value := rfl
@[simp] theorem emitWire_isCommand (s : State) : s.emitWire.isCommand = s.isCommand := rfl
@[simp] theorem emitWire_ready (s : State) : s.emitWire.ready = s.ready := rfl
@[simp] theorem emitWire_resetReq (s : State) : s.emitWire.resetReq = s.resetReq := rfl
@[simp] theorem emitWire_phase (s : State) : s.emitWire.phase = s.phase := rfl
@[simp] theorem emitWire_sub (s : State) : s.emitWire.sub = s.sub := rfl
@[simp] theorem emitWire_rstPending (s : State) : s.emitWire.rstPending = s.rstPending := rfl
@[simp] theorem emitWire_bitIndex (s : State) : s.emitWire.bitIndex = s.bitIndex := rfl
@[simp] theorem emitWire_halfPhase (s : State) : s.emitWire.halfPhase = s.halfPhase := rfl
@[simp] theorem emitWire_clk (s : State) : s.emitWire.clk = s.clk := rfl
@[simp] theorem emitWire_dat (s : State) : s.emitWire.dat = s.dat := rfl
@[simp] theorem emitWire_rst (s : State) : s.emitWire.rst = s.rst := rfl
@[simp] theorem emitWire_dc (s : State) : s.emitWire.dc = s.dc := rfl
@[simp] theorem emitWire_cs (s : State) : s.emitWire.cs = s.cs := rfl
@[simp] theorem emitWire_regen (s : State) : s.emitWire.regen = s.regen := rfl
@[simp] theorem emitWire_rxSamples (s : State) : s.emitWire.rxSamples = s.rxSamples := rfl
@[simp] theorem emitWire_rx (s : State) : s.emitWire.rx = s.rx := rfl
@[simp] theorem emitWire_host (s : State) : s.emitWire.host = s.host := rfl
@[simp] theorem emitWire_subDone (s : State) : s.emitWire.subDone = s.subDone := rfl
@[simp] theorem emitWire_lastPoll (s : State) : s.emitWire.lastPoll = s.lastPoll := rfl
@[simp] theorem emitWire_busData (s : State) : s.emitWire.busData = s.busData := rfl
@[simp] theorem emitWire_buf (s : State) : s.emitWire.buf = s.buf := rfl

/-! ## The host's pending lines -/

@[simp] theorem prepend_host (s : State) (ls : List HostLine) : (s.prepend ls).host = ls ++ s.host := rfl
@[simp] theorem prepend_cfg (s : State) (ls : List HostLine) : (s.prepend ls).cfg = s.cfg := rfl
@[simp] theorem prepend_value (s : State) (ls : List HostLine) : (s.prepend ls).value = s.value := rfl
@[simp] theorem prepend_isCommand (s : State) (ls : List HostLine) : (s.prepend ls).isCommand = s.isCommand := rfl
@[simp] theorem prepend_ready (s : State) (ls : List HostLine) : (s.prepend ls).ready = s.ready := rfl
@[simp] theorem prepend_resetReq (s : State) (ls : List HostLine) : (s.prepend ls).resetReq = s.resetReq := rfl
@[simp] theorem prepend_phase (s : State) (ls : List HostLine) : (s.prepend ls).phase = s.phase := rfl
@[simp] theorem prepend_sub (s : State) (ls : List HostLine) : (s.prepend ls).sub = s.sub := rfl
@[simp] theorem prepend_rstPending (s : State) (ls : List HostLine) : (s.prepend ls).rstPending = s.rstPending := rfl
@[simp] theorem prepend_bitIndex (s : State) (ls : List HostLine) : (s.prepend ls).bitIndex = s.bitIndex := rfl
@[simp] theorem prepend_halfPhase (s : State) (ls : List HostLine) : (s.prepend ls).halfPhase = s.halfPhase := rfl
@[simp] theorem prepend_clk (s : State) (ls : List HostLine) : (s.prepend ls).clk = s.clk := rfl
@[simp] theorem prepend_dat (s : State) (ls : List HostLine) : (s.prepend ls).dat = s.dat := rfl
@[simp] theorem prepend_rst (s : State) (ls : List HostLine) : (s.prepend ls).rst = s.rst := rfl
@[simp] theorem prepend_dc (s : State) (ls : List HostLine) : (s.prepend ls).dc = s.dc := rfl
@[simp] theorem prepend_cs (s : State) (ls : List HostLine) : (s.prepend ls).cs = s.cs := rfl
@[simp] theorem prepend_regen (s : State) (ls : List HostLine) : (s.prepend ls).regen = s.regen := rfl
@[simp] theorem prepend_wire (s : State) (ls : List HostLine) : (s.prepend ls).wire = s.wire := rfl
@[simp] theorem prepend_rxSamples (s : State) (ls : List HostLine) : (s.prepend ls).rxSamples = s.rxSamples := rfl
@[simp] theorem prepend_rx (s : State) (ls : List HostLine) : (s.prepend ls).rx = s.rx := rfl
@[simp] theorem prepend_subDone (s : State) (ls : List HostLine) : (s.prepend ls).subDone = s.subDone := rfl
@[simp] theorem prepend_lastPoll (s : State) (ls : List HostLine) : (s.prepend ls).lastPoll = s.lastPoll := rfl
@[simp] theorem prepend_busData (s : State) (ls : List HostLine) : (s.prepend ls).busData = s.busData := rfl
@[simp] theorem prepend_buf (s : State) (ls : List HostLine) : (s.prepend ls).buf = s.buf := rfl

/-! ## The initialisation state -/

@[simp] theorem resetWith_cfg (c : Config) : (State.resetWith c).cfg = c := rfl
@[simp] theorem resetWith_value (c : Config) : (State.resetWith c).value = Config.slotValueAtReset := rfl
@[simp] theorem resetWith_isCommand (c : Config) : (State.resetWith c).isCommand = Config.slotIsCommandAtReset := rfl
@[simp] theorem resetWith_ready (c : Config) : (State.resetWith c).ready = false := rfl
@[simp] theorem resetWith_resetReq (c : Config) : (State.resetWith c).resetReq = false := rfl
@[simp] theorem resetWith_phase (c : Config) : (State.resetWith c).phase = .idle := rfl
@[simp] theorem resetWith_sub (c : Config) : (State.resetWith c).sub = .assertClockIdle := rfl
@[simp] theorem resetWith_rstPending (c : Config) : (State.resetWith c).rstPending = c.initRstPending := rfl
@[simp] theorem resetWith_bitIndex (c : Config) : (State.resetWith c).bitIndex = 0#3 := rfl
@[simp] theorem resetWith_halfPhase (c : Config) : (State.resetWith c).halfPhase = .dataSetup := rfl
@[simp] theorem resetWith_clk (c : Config) : (State.resetWith c).clk = none := rfl
@[simp] theorem resetWith_dat (c : Config) : (State.resetWith c).dat = none := rfl
@[simp] theorem resetWith_rst (c : Config) : (State.resetWith c).rst = none := rfl
@[simp] theorem resetWith_dc (c : Config) : (State.resetWith c).dc = none := rfl
@[simp] theorem resetWith_cs (c : Config) : (State.resetWith c).cs = (some c.csActiveLevel) := rfl
@[simp] theorem resetWith_regen (c : Config) : (State.resetWith c).regen = (if c.hasRegen then some c.regenActiveLevel else none) := rfl
@[simp] theorem resetWith_wire (c : Config) : (State.resetWith c).wire = [] := rfl
@[simp] theorem resetWith_rxSamples (c : Config) : (State.resetWith c).rxSamples = [] := rfl
@[simp] theorem resetWith_rx (c : Config) : (State.resetWith c).rx = [] := rfl
@[simp] theorem resetWith_host (c : Config) : (State.resetWith c).host = [] := rfl
@[simp] theorem resetWith_subDone (c : Config) : (State.resetWith c).subDone = [] := rfl
@[simp] theorem resetWith_lastPoll (c : Config) : (State.resetWith c).lastPoll = none := rfl
@[simp] theorem resetWith_busData (c : Config) : (State.resetWith c).busData = none := rfl
@[simp] theorem resetWith_buf (c : Config) : (State.resetWith c).buf = [] := rfl

end Sys2Proof.Machine
end

