-- ==== Sys2Proof/Laws/Tick.lean ====
section
/-! SUPPORT. One tick: the state word selects the micro-operation the dispatcher of R140 performs, a tick always completes, and
what each micro-operation leaves. -/

namespace Sys2Proof.Machine

/-! ## Decoding the state word -/

/-- The micro-operation of R140's case analysis. -/
def microOp (s : State) : Instr :=
  match s.phase with
  | .idle => if s.rstPending then (match s.sub with | .assertClockIdle => .iClk | .assertReset => .iRst) else .iSkip
  | .transmitting =>
    if s.ready then (match s.halfPhase with | .dataSetup => .tSetup | .clockPulse => .tPulse)
    else if s.resetReq then .tRstgo else .tWait
  | .resetting => if s.resetReq then .rHold else .rExit

theorem exec_microOp (s : State) : exec (microOp s) s = execTick s := by
  unfold microOp execTick
  repeat' split
  all_goals first | rfl | simp_all

theorem decode_stateWord_idle : ∀ (sub : Bool) (pend rdy rq hp : Bool) (idx : BitVec 3),
    decodeState ((0b00#2 ++ BitVec.ofBool sub ++ BitVec.ofBool pend ++ BitVec.ofBool rdy ++ BitVec.ofBool rq ++
      BitVec.ofBool hp ++ idx : BitVec 10)) = some (if pend then (if sub then .iRst else .iClk) else .iSkip) := by
  decide

theorem decode_stateWord_transmitting : ∀ (sub : Bool) (pend rdy rq hp : Bool) (idx : BitVec 3),
    decodeState ((0b01#2 ++ BitVec.ofBool sub ++ BitVec.ofBool pend ++ BitVec.ofBool rdy ++ BitVec.ofBool rq ++
      BitVec.ofBool hp ++ idx : BitVec 10)) =
      some (if rdy then (if hp then .tPulse else .tSetup) else if rq then .tRstgo else .tWait) := by
  decide

theorem decode_stateWord_resetting : ∀ (sub : Bool) (pend rdy rq hp : Bool) (idx : BitVec 3),
    decodeState ((0b10#2 ++ BitVec.ofBool sub ++ BitVec.ofBool pend ++ BitVec.ofBool rdy ++ BitVec.ofBool rq ++
      BitVec.ofBool hp ++ idx : BitVec 10)) = some (if rq then .rHold else .rExit) := by
  decide

/-- The table of R95 and the case analysis of R140 select the same micro-operation, in every state. -/
theorem decodeState_stateWord (s : State) : decodeState s.stateWord = some (microOp s) := by
  unfold State.stateWord microOp
  cases s.phase
  · refine (decode_stateWord_idle ..).trans ?_
    cases s.sub <;> rfl
  · refine (decode_stateWord_transmitting ..).trans ?_
    cases s.halfPhase <;> rfl
  · exact decode_stateWord_resetting ..

@[simp] theorem fetchTick_eq (s : State) : fetchTick s = .run (microOp s) s := by
  simp [fetchTick, decodeState_stateWord]

/-! ## The state after a tick -/

/-- The state a TICK step leaves. -/
def afterTick (s : State) : State :=
  match execTick s with
  | .next t => t
  | _ => s

/-- A tick always completes (R140: "a TICK step is always enabled"). -/
theorem execTick_eq (s : State) : execTick s = .next (afterTick s) := by
  unfold afterTick execTick
  repeat' split
  all_goals simp_all [execIClk, execIRst, execISkip, execTSetup, execTPulse, execTRstgo, execTWait, execRHold, execRExit]

section
variable {s : State}

theorem afterTick_iClk (hp : s.phase = .idle) (hr : s.rstPending = true) (hs : s.sub = .assertClockIdle) :
    afterTick s = s.observed { s with clk := some s.cfg.clkIdleLevel, sub := .assertReset } := by
  simp [afterTick, execTick, hp, hr, hs, execIClk]

theorem afterTick_iRst (hp : s.phase = .idle) (hr : s.rstPending = true) (hs : s.sub = .assertReset) :
    afterTick s = s.observed { s with
      rstPending := false, rst := some s.cfg.rstStep2Level, sub := .assertClockIdle, phase := .transmitting } := by
  simp [afterTick, execTick, hp, hr, hs, execIRst]

theorem afterTick_iSkip (hp : s.phase = .idle) (hr : s.rstPending = false) :
    afterTick s = { s with phase := .transmitting } := by
  simp [afterTick, execTick, hp, hr, execISkip]

theorem afterTick_tSetup (hp : s.phase = .transmitting) (hr : s.ready = true) (hh : s.halfPhase = .dataSetup) :
    afterTick s = (s.observed { s with
      dat := some (Level.ofBit (selectedBit s.value s.bitIndex)), clk := some .low, halfPhase := .clockPulse }).emitWire := by
  simp [afterTick, execTick, hp, hr, hh, execTSetup, setupHalf, afterAdvance]

theorem afterTick_tPulse (hp : s.phase = .transmitting) (hr : s.ready = true) (hh : s.halfPhase = .clockPulse)
    (hi : s.bitIndex ≠ 7#3) :
    afterTick s = (s.observed { s with
      clk := some .high, halfPhase := .dataSetup, bitIndex := s.bitIndex + 1#3 }).emitWire := by
  simp [afterTick, execTick, hp, hr, hh, execTPulse, pulseHalf, afterAdvance, hi]

theorem afterTick_complete (hp : s.phase = .transmitting) (hr : s.ready = true) (hh : s.halfPhase = .clockPulse)
    (hi : s.bitIndex = 7#3) :
    afterTick s = (s.observed { s with
      clk := some .high, halfPhase := .dataSetup, bitIndex := 0#3 }).emitWire.clearReady := by
  simp [afterTick, execTick, hp, hr, hh, execTPulse, pulseHalf, afterAdvance, hi]

theorem afterTick_tRstgo (hp : s.phase = .transmitting) (hr : s.ready = false) (hq : s.resetReq = true) :
    afterTick s = { s with phase := .resetting } := by
  simp [afterTick, execTick, hp, hr, hq, execTRstgo]

theorem afterTick_tWait (hp : s.phase = .transmitting) (hr : s.ready = false) (hq : s.resetReq = false) :
    afterTick s = s := by
  simp [afterTick, execTick, hp, hr, hq, execTWait]

theorem afterTick_rHold (hp : s.phase = .resetting) (hq : s.resetReq = true) :
    afterTick s = s.observed { s with
      clk := some .high, rst := some .low, rstPending := true, resetReq := false } := by
  simp [afterTick, execTick, hp, hq, execRHold, assertCycle, Config.rstAssertLevel]

theorem afterTick_rExit (hp : s.phase = .resetting) (hq : s.resetReq = false) :
    afterTick s = s.observed { s with
      clk := some .high, rst := some .low, rstPending := true, phase := .idle } := by
  simp [afterTick, execTick, hp, hq, execRExit, assertCycle, Config.rstAssertLevel]

end

/-- Every tick is one of these ten cases (R151). -/
theorem tick_cases (s : State) :
    (s.phase = .idle ∧ s.rstPending = true ∧ s.sub = .assertClockIdle) ∨
    (s.phase = .idle ∧ s.rstPending = true ∧ s.sub = .assertReset) ∨
    (s.phase = .idle ∧ s.rstPending = false) ∨
    (s.phase = .transmitting ∧ s.ready = true ∧ s.halfPhase = .dataSetup) ∨
    (s.phase = .transmitting ∧ s.ready = true ∧ s.halfPhase = .clockPulse ∧ s.bitIndex ≠ 7#3) ∨
    (s.phase = .transmitting ∧ s.ready = true ∧ s.halfPhase = .clockPulse ∧ s.bitIndex = 7#3) ∨
    (s.phase = .transmitting ∧ s.ready = false ∧ s.resetReq = true) ∨
    (s.phase = .transmitting ∧ s.ready = false ∧ s.resetReq = false) ∨
    (s.phase = .resetting ∧ s.resetReq = true) ∨
    (s.phase = .resetting ∧ s.resetReq = false) := by
  by_cases hi : s.bitIndex = 7#3 <;>
    cases s.phase <;> cases s.rstPending <;> cases s.sub <;> cases s.ready <;> cases s.resetReq <;> cases s.halfPhase <;>
      simp [hi]

end Sys2Proof.Machine
end

