-- ==== Sys2Proof/Laws/Step.lean ====
section
/-! SUPPORT. One step, said once: what each kind of host line does, and every way a step can answer a next state. -/

namespace Sys2Proof.Machine

/-! ## The host operations -/

theorem submit_empty {s : State} (c : Bool) (v : Byte) (h : s.ready = false) :
    submit c v s = .next { s with dc := some (s.cfg.dcLevel c), value := v, isCommand := c, ready := true, subDone := [] } := by
  simp [submit, h, subSteps, State.subStep]

theorem submit_full {s : State} (c : Bool) (v : Byte) (h : s.ready = true) :
    submit c v s = .fault (.contractViolation .reentrant) := by
  simp [submit, h, violate]

/-- A submission that answers a next state found the slot empty. -/
theorem submit_next {s t : State} {c : Bool} {v : Byte} (h : submit c v s = .next t) :
    s.ready = false ∧ t = { s with dc := some (s.cfg.dcLevel c), value := v, isCommand := c, ready := true, subDone := [] } := by
  cases hr : s.ready
  · rw [submit_empty c v hr] at h
    exact ⟨rfl, (Host.Outcome.next.inj h).symm⟩
  · rw [submit_full c v hr] at h
    cases h

/-- The page index in the low bits of a page-select byte gives the byte back (R98). -/
theorem pageSelectByte_low : ∀ b : Byte, b &&& 0xF0 = 0xB0 → pageSelectByte (b.extractLsb' 0 4).toNat = b := by
  decide

theorem exec_ite {c : Prop} [Decidable c] {i j : Instr} {s : State} {o : Host.Outcome State Fault Refusal}
    (hi : c → exec i s = o) (hj : exec j s = o) : exec (if c then i else j) s = o := by
  by_cases h : c
  · rw [if_pos h]; exact hi h
  · rw [if_neg h]; exact hj

/-- What a payload row's instruction is: the submission of its byte as a command. -/
theorem exec_decodePayload (b : Byte) (s : State) : exec (decodePayload b) s = submit true b s := by
  unfold decodePayload
  by_cases h : b &&& 0xF0 = 0xB0
  · rw [if_pos h]
    show submit true (pageSelectByte _) s = _
    rw [pageSelectByte_low b h]
  rw [if_neg h]
  iterate 12 refine exec_ite (fun h => by subst h; rfl) ?_
  rfl

/-- What a host word's instruction can be. -/
theorem decodeHost_cases {w : HostWord} {i : Instr} (h : decodeHost w = some i) :
    i = .tick ∨ (∃ v, i = .subC v) ∨ (∃ v, i = .subD v) ∨ i = .poll ∨ (w = 0x3000 ∧ i = .wait) ∨ i = .rstreq := by
  unfold decodeHost at h
  have hm : ∀ w : HostWord, w &&& 0xFFFF = w := fun w => by
    have : (0xFFFF : HostWord) = BitVec.allOnes 16 := by decide
    rw [this, BitVec.and_allOnes]
  simp only [hm] at h
  repeat' split at h
  all_goals simp_all
  all_goals subst h
  all_goals simp_all

/-! ## The Pixel Buffer -/

/-- Every way a step can change the Pixel Buffer. -/
def BufMove (s : State) (m : Memory) : Prop :=
  m = s.buf ∨ m = [] ∨
  (∃ x y b, x < s.cfg.cols ∧ y < s.cfg.rows ∧ m = s.buf.write (s.cfg.cellAddress (pageOfRow y) x) b) ∨
  (∃ x p g, p < s.cfg.pages ∧ x + 5 ≤ s.cfg.cols ∧ m = s.buf.writeMany (s.cfg.cellAddress p x) (Vector.toList (n := 5) g))

theorem BufMove.wf {s : State} {m : Memory} (h : BufMove s m) (hs : s.buf.wf = true) : m.wf = true := by
  rcases h with rfl | rfl | ⟨x, y, b, -, -, rfl⟩ | ⟨x, p, g, -, -, rfl⟩
  · exact hs
  · rfl
  · exact Memory.wf_write _ _ hs
  · exact Memory.wf_writeMany _ _ hs

/-! ## Every way a step can go -/

/-- What one step can do to the state: a tick, or one move of the host. `h` is what the host has still to do, `b` what a bus read
returned. -/
inductive Move (s : State) : State → Prop where
  /-- The TICK agent moved. -/
  | tick (h : List HostLine) (ht : stepTicks s = true) : Move s (afterTick { s with host := h })
  /-- The host read something, changed its buffer, expanded a line or dropped one. -/
  | side (h : List HostLine) (p : Option Bool) (b : Option (BitVec 32)) (m : Memory) (hn : stepTicks s = false)
      (hm : BufMove s m) : Move s { s with host := h, lastPoll := p, busData := b, buf := m }
  /-- The host requested a reset. -/
  | request (h : List HostLine) (hn : stepTicks s = false) : Move s { s with host := h, resetReq := true }
  /-- The host submitted a byte. -/
  | submit (h : List HostLine) (c : Bool) (v : Byte) (hn : stepTicks s = false) (hs : hostSubmits s = some (c, v))
      (hr : s.ready = false) : Move s { s with
        host := h, dc := some (s.cfg.dcLevel c), value := v, isCommand := c, ready := true, subDone := [] }
  /-- The host performed one micro-step of a submission written out. -/
  | subStep (h : List HostLine) (m : SubStep) (hn : stepTicks s = false) (hs : s.host = .subStep m :: h) (hr : s.ready = false)
      (hf : SubStep.follows s.subDone m = true) : Move s (State.subStep { s with host := h } m)

theorem Move.of_submit {s t : State} {c : Bool} {v : Byte} {h : List HostLine} (hn : stepTicks s = false)
    (hs : hostSubmits s = some (c, v)) (ht : Machine.submit c v { s with host := h } = .next t) : Move s t := by
  obtain ⟨hr, rfl⟩ := submit_next ht
  exact .submit h c v hn hs hr

theorem Move.of_side {s : State} (h : List HostLine) (hn : stepTicks s = false) : Move s { s with host := h } :=
  .side h s.lastPoll s.busData s.buf hn (.inl rfl)

theorem Move.of_tick {s t : State} {h : List HostLine} (hk : stepTicks s = true)
    (ht : exec (microOp { s with host := h }) { s with host := h } = .next t) : Move s t := by
  rw [exec_microOp, execTick_eq] at ht
  cases ht
  exact .tick h hk

/-- Whether a step is a tick, by the line the host is at and not held at. -/
theorem stepTicks_line {s : State} {l : HostLine} {rest : List HostLine} (hl : s.host = l :: rest) (hw : s.heldAt l = false) :
    stepTicks s = l.isTick := by
  simp only [stepTicks, hl, hw, Bool.false_or]

theorem Move.of_bus {s t : State} {a : BusAccess} {rest : List HostLine} (hl : s.host = .bus a :: rest) (hn : stepTicks s = false)
    (ht : (match fetchBus a { s with host := rest } with | .run i u => exec i u | .done o => o) = .next t) : Move s t := by
  cases a with
  | write off width w =>
    simp only [fetchBus, BusAccess.effect] at ht
    by_cases hw : width = 4
    · by_cases h0 : off = 0x0
      · simp only [hw, h0, if_true] at ht
        exact .of_submit hn (by simp [hostSubmits, hl, hw, h0]) ht
      · by_cases h4 : off = 0x4
        · simp only [hw, h4, if_true] at ht; cases ht; exact .of_side rest hn
        · by_cases h8 : off = 0x8
          · subst hw h8
            cases hb : w.getLsbD 0 <;> simp only [hb] at ht <;> cases ht
            · exact .of_side rest hn
            · exact .request rest hn
          · simp [hw, h0, h4, h8] at ht
    · simp [hw] at ht
  | read off width =>
    simp only [fetchBus, BusAccess.effect] at ht
    by_cases hw : width = 4
    · by_cases h0 : off = 0x0
      · simp only [hw, h0, if_true] at ht; cases ht; exact .side rest s.lastPoll _ s.buf hn (.inl rfl)
      · by_cases h4 : off = 0x4
        · simp [hw, h4, exec, execPoll] at ht; subst ht; exact .side rest (some s.ready) _ s.buf hn (.inl rfl)
        · by_cases h8 : off = 0x8
          · simp [hw, h8] at ht; subst ht; exact .side rest s.lastPoll _ s.buf hn (.inl rfl)
          · simp [hw, h0, h4, h8] at ht
    · simp [hw] at ht

/-- What a host word's instruction does to the state, the host not being held at it. -/
theorem Move.of_word {s t : State} {w : HostWord} {rest : List HostLine} (hl : s.host = .word w :: rest)
    (hw : s.heldAt (.word w) = false)
    (ht : (match fetchLine { s with host := rest } (.word w) with | .run i u => exec i u | .done o => o) = .next t) :
    Move s t := by
  have hk := stepTicks_line hl hw
  have hand : ∀ w : HostWord, w &&& 0xFFFF = w := fun w => by
    have : (0xFFFF : HostWord) = BitVec.allOnes 16 := by decide
    rw [this, BitVec.and_allOnes]
  simp only [fetchLine, decodeHost, hand] at ht
  by_cases h0 : w = 0x0000
  · subst h0
    exact .of_tick (h := rest) (by rw [hk]; rfl) (by rw [exec_microOp]; exact ht)
  have hn : stepTicks s = false := by rw [hk]; simpa [HostLine.isTick] using h0
  simp only [h0, if_false] at ht
  by_cases h1 : w &&& 0xFE00 = 0x1000
  · simp only [h1, if_true] at ht
    have hs : hostSubmits s = some (hostKind w, hostVal w) := by simp only [hostSubmits, hl, h1, if_true]; rfl
    cases hc : hostKind w <;> simp only [hc, if_true] at ht hs <;> exact .of_submit hn hs ht
  simp only [h1, if_false] at ht
  by_cases h2 : w = 0x2000
  · simp [h2, exec, execPoll] at ht; subst ht
    exact .side rest (some s.ready) s.busData s.buf hn (.inl rfl)
  by_cases h3 : w = 0x3000
  · have hr : s.ready = false := by simpa [State.heldAt, waitLine, h3] using hw
    have : execWait { s with host := rest } = .next { s with host := rest } := by unfold execWait; exact if_neg (by simp [hr])
    simp only [h3] at ht
    cases ht.symm.trans this
    exact .of_side rest hn
  by_cases h4 : w = 0x4000
  · simp [h4, exec, execRstreq] at ht; subst ht
    exact .request rest hn
  · simp only [h2, h3, h4, if_false] at ht; cases ht

theorem Move.of_line {s : State} {l : HostLine} {rest : List HostLine} (hl : s.host = l :: rest) (hw : s.heldAt l = false)
    {t : State} (ht : (match fetchLine { s with host := rest } l with | .run i u => exec i u | .done o => o) = .next t) :
    Move s t := by
  have hk := stepTicks_line hl hw
  cases l with
  | word w => exact .of_word hl hw ht
  | command b =>
    simp only [fetchLine, exec_decodePayload] at ht
    exact .of_submit hk (by simp only [hostSubmits, hl]) ht
  | bus a => exact .of_bus hl hk ht
  | subStep m =>
    simp only [fetchLine, execSubStep, violate] at ht
    split at ht
    · cases ht
    · next hr =>
      split at ht
      · next hf =>
        cases ht
        exact .subStep rest m hk hl (by simpa using hr) hf
      · cases ht
  | subb c v =>
    have : Machine.submit c v { s with host := waitLine :: rest } = .next t := by
      cases c <;> exact ht
    exact .of_submit hk (by simp only [hostSubmits, hl]) this
  | delay n =>
    cases n with
    | zero => simp only [fetchLine] at ht; cases ht; exact .of_side rest hk
    | succ n =>
      simp only [fetchLine, fetchTick_eq] at ht
      exact .of_tick (h := HostLine.delay n :: rest) (by rw [hk]; rfl) ht
  | init =>
    simp only [fetchLine] at ht; cases ht
    exact .of_side _ hk
  | frame =>
    simp only [fetchLine] at ht; cases ht
    exact .of_side _ hk
  | contrast v =>
    simp only [fetchLine] at ht
    split at ht
    · next o ho =>
      split at ho <;> cases ho
    · next o ho =>
      split at ho <;> cases ho <;> cases ht
      exact .of_side _ hk
  | setPx x y on =>
    simp only [fetchLine, setPixel, violate] at ht
    split at ht
    · next hok =>
      cases ht
      simp only [Config.pixelOk, decide_eq_true_eq] at hok
      exact .side rest s.lastPoll s.busData _ hk (.inr (.inr (.inl ⟨x, y, _, hok.1, hok.2, rfl⟩)))
    · cases ht
  | clrBuf => simp only [fetchLine, clearBuffer] at ht; cases ht; exact .side rest s.lastPoll s.busData [] hk (.inr (.inl rfl))
  | blit x p g =>
    simp only [fetchLine, blitGlyph, violate] at ht
    split at ht
    · next hok =>
      cases ht
      simp only [Config.blitOk, decide_eq_true_eq] at hok
      exact .side rest s.lastPoll s.busData _ hk (.inr (.inr (.inr ⟨x, p, g, hok.1, hok.2, rfl⟩)))
    · cases ht

/-- Every step that answers a next state is one of the moves. -/
theorem step_move {s t : State} (h : step s = .next t) : Move s t := by
  unfold step fetch at h
  cases hh : s.host with
  | nil =>
    simp only [hh, fetchTick_eq] at h
    exact .of_tick (h := s.host) (by simp [stepTicks, hh]) h
  | cons l rest =>
    simp only [hh] at h
    cases hw : s.heldAt l with
    | true =>
      simp only [hw, if_true, fetchTick_eq] at h
      exact .of_tick (h := s.host) (by simp [stepTicks, hh, hw]) h
    | false =>
      simp only [hw] at h
      exact .of_line hh hw h

/-- A TICK step is a tick, whatever line the host was at. -/
theorem step_ticks {s : State} (h : stepTicks s = true) : ∃ l, step s = .next (afterTick { s with host := l }) := by
  cases hh : s.host with
  | nil => exact ⟨s.host, by show step s = .next (afterTick s); simp [step, fetch, hh, exec_microOp, execTick_eq]⟩
  | cons l rest =>
    cases hw : s.heldAt l with
    | true => exact ⟨s.host, by show step s = .next (afterTick s); simp [step, fetch, hh, hw, exec_microOp, execTick_eq]⟩
    | false =>
      rw [stepTicks_line hh hw] at h
      cases l with
      | word w =>
        have : w = 0x0000 := by simpa [HostLine.isTick] using h
        subst this
        exact ⟨rest, by simp only [step, fetch, hh, hw]; exact execTick_eq _⟩
      | delay n =>
        cases n with
        | zero => simp [HostLine.isTick] at h
        | succ n => exact ⟨.delay n :: rest, by simp [step, fetch, hh, hw, fetchLine, State.prepend, exec_microOp, execTick_eq]⟩
      | _ => simp [HostLine.isTick] at h

/-! ## Steps of the TICK agent -/

/-- With nothing for the host to do, the step is a tick. -/
theorem step_idle_host {s : State} (h : s.host = []) : step s = .next (afterTick s) := by
  simp [step, fetch, h, exec_microOp, execTick_eq]

/-- With the host held at a WAIT, the step is a tick. -/
theorem step_held {s : State} {rest : List HostLine} (hr : s.ready = true) (h : s.host = waitLine :: rest) :
    step s = .next (afterTick s) := by
  simp [step, fetch, h, State.heldAt, hr, exec_microOp, execTick_eq]

theorem step_hostWaits {s : State} (hr : s.ready = true) (h : HostWaits s) : step s = .next (afterTick s) := by
  rcases h with h | ⟨rest, h⟩
  · exact step_idle_host h
  · exact step_held hr h

/-- On an empty slot the host's line is performed, whatever it is. -/
theorem step_line {s : State} {l : HostLine} {rest : List HostLine} (hr : s.ready = false) (h : s.host = l :: rest) :
    step s = match fetchLine { s with host := rest } l with | .run i u => exec i u | .done o => o := by
  simp only [step, fetch, h, State.heldAt, hr, Bool.false_and, Bool.false_eq_true, if_false] <;> rfl

/-- A host word that is not a WAIT on a full slot is performed as the instruction it decodes to. -/
theorem step_word {s : State} {w : HostWord} {rest : List HostLine} {i : Instr} (hw : s.ready = false ∨ w ≠ 0x3000)
    (h : s.host = .word w :: rest) (hd : decodeHost w = some i) : step s = exec i { s with host := rest } := by
  have : s.heldAt (.word w) = false := by
    rcases hw with hr | hw
    · simp [State.heldAt, hr]
    · simp only [State.heldAt, waitLine, Bool.and_eq_false_imp, beq_eq_false_iff_ne, ne_eq, HostLine.word.injEq]
      exact fun _ => hw
  simp only [step, fetch, h, this, fetchLine, hd]
  rfl

/-- A TICK marker is performed as a tick. -/
theorem step_tick {s : State} {rest : List HostLine} (h : s.host = .word 0x0000 :: rest) :
    step s = .next (afterTick { s with host := rest }) :=
  (step_word (.inr (by decide)) h (i := .tick) rfl).trans (execTick_eq _)

/-- The word of a submission decodes to the spelling with its kind. -/
theorem decodeHost_subWord (c : Bool) (v : Byte) : decodeHost (subWord c v) = some (if c then .subC v else .subD v) := by
  revert c v
  decide

/-- The word of a submission on an empty slot publishes the byte. -/
theorem step_subWord {s : State} {c : Bool} {v : Byte} {rest : List HostLine} (hr : s.ready = false)
    (h : s.host = .word (subWord c v) :: rest) :
    step s = .next { s with host := rest, dc := some (s.cfg.dcLevel c), value := v, isCommand := c, ready := true, subDone := [] } := by
  rw [step_word (.inl hr) h (decodeHost_subWord c v)]
  have : submit c v { s with host := rest } =
      .next { s with host := rest, dc := some (s.cfg.dcLevel c), value := v, isCommand := c, ready := true, subDone := [] } :=
    submit_empty c v hr
  cases c <;> exact this

/-- A request is performed at once. -/
theorem step_rstreq {s : State} {rest : List HostLine} (h : s.host = .word 0x4000 :: rest) :
    step s = .next { s with host := rest, resetReq := true } :=
  step_word (.inr (by decide)) h (i := .rstreq) rfl

/-- SUBB on an empty slot submits the byte and leaves the host at a WAIT. -/
theorem step_subb {s : State} {c : Bool} {v : Byte} {rest : List HostLine} (hr : s.ready = false)
    (h : s.host = .subb c v :: rest) :
    step s = .next { s with
      host := waitLine :: rest, dc := some (s.cfg.dcLevel c), value := v, isCommand := c, ready := true, subDone := [] } := by
  rw [step_line hr h]
  have : submit c v { s with host := waitLine :: rest } =
      .next { s with
        host := waitLine :: rest, dc := some (s.cfg.dcLevel c), value := v, isCommand := c, ready := true, subDone := [] } :=
    submit_empty c v hr
  cases c <;> exact this

/-- WAIT on an empty slot passes. -/
theorem step_wait {s : State} {rest : List HostLine} (hr : s.ready = false) (h : s.host = waitLine :: rest) :
    step s = .next { s with host := rest } := by
  rw [step_word (.inl hr) h (i := .wait) rfl]
  show execWait { s with host := rest } = _
  simp only [execWait, hr]
  rfl

/-! ## Runs -/

@[simp] theorem run_zero (s : State) : runSteps 0 s = .next s := rfl

theorem core_run_succ (M : Host.Core) {s t : M.State} (k : Nat) (h : M.step s = .next t) : M.run (k + 1) s = M.run k t := by
  rw [Host.Core.run, h]

theorem core_run_add (M : Host.Core) {s t : M.State} (j k : Nat) (h : M.run j s = .next t) :
    M.run (j + k) s = M.run k t := by
  induction j generalizing s with
  | zero => cases h; rw [Nat.zero_add]
  | succ j ih =>
    rw [show j + 1 + k = (j + k) + 1 by omega]
    cases hs : M.step s with
    | next u => rw [core_run_succ M _ hs] at h ⊢; exact ih h
    | fault r => rw [Host.Core.run, hs] at h; cases h
    | refused r => rw [Host.Core.run, hs] at h; cases h

/-- A run whose first step answers a next state goes on from it. -/
theorem run_succ {s t : State} (k : Nat) (h : step s = .next t) :
    runSteps (k + 1) s = runSteps k t :=
  core_run_succ Sys2Proof.core k h

/-- Runs compose. -/
theorem run_add {s t : State} (j k : Nat) (h : runSteps j s = .next t) :
    runSteps (j + k) s = runSteps k t :=
  core_run_add Sys2Proof.core j k h

end Sys2Proof.Machine
end

