-- ==== Sys2Proof/Tests/Slice0.lean ====
section
/-! SUPPORT. Tests: the smoke tests of WellFormed, words written out from spec/30_encoding.md, single-step vectors of
spec/95_test_vectors.md (the id is in each docstring), and a witness for every statement that has hypotheses. -/

namespace Sys2Proof.Tests

open Sys2Proof.Machine

/-! ## Helpers -/

/-- A configuration with the spec's default levels, 8 columns and 2 pages. -/
def cfg : Config := { hasRegen := true, cols := 8, rows := 16, swresetDelayTicks := 3 }

/-- The initialisation state of that configuration, with a concrete byte in the slot. -/
def init : State := { State.resetWith cfg with value := 0x00, isCommand := false }

/-- The state of a state word, with the lines `CLK`, `DAT`, `RST` at the levels given. -/
def at_ (w : StateWord) (clk dat rst : Option Level) : State :=
  { init.withStateWord w with clk := clk, dat := dat, rst := rst }

/-- The resting state (R145). -/
def rest : State := at_ 0x100 (some .high) none (some .high)

/-- A byte just published in phase Transmitting. -/
def full : State := { at_ 0x120 (some .high) none (some .high) with value := 0xA5, isCommand := true, dc := some .low }

/-- Before the completion tick of a byte `0xA5`: seven bits sampled, the last one on the line. -/
def last : State :=
  { at_ 0x12F (some .low) (some .high) (some .high) with
    value := 0xA5, isCommand := true, dc := some .low
    rxSamples := [some .high, some .low, some .high, some .low, some .low, some .high, some .low] }

/-- Between setup and pulse of bit index 2 of a byte `0xA5`. -/
def middle : State :=
  { at_ 0x12A (some .low) (some .high) (some .high) with
    value := 0xA5, isCommand := true, dc := some .low, rxSamples := [some .high, some .low] }

/-- A SUB.C 0x5A written out, its kind and its publish still to do. -/
def halfway : State := { rest with dc := some .low, value := 0x5A, subDone := [.driveDc true, .writeValue 0x5A] }

/-- Just after T.RSTGO. -/
def resetStart : State := at_ 0x210 (some .high) none (some .high)

/-- After the first R.HOLD of a pass. -/
def resetHeld : State := at_ 0x240 (some .high) none (some .low)

/-- A byte published just after T.RSTGO. -/
def waiting : State := { at_ 0x230 (some .high) none (some .high) with value := 0xAF, isCommand := true, dc := some .low }

/-- Back in phase Idle after a pass. -/
def idleAgain : State := at_ 0x040 (some .high) none (some .low)

/-- In phase Idle after I.CLK of a pass. -/
def idleSecond : State := at_ 0x0C0 (some .high) none (some .low)

/-- A state with lines for the host. -/
def State.doing (s : State) (ls : List HostLine) : State := { s with host := ls }

/-- Whether an outcome is a next state of which a check holds. -/
def goesTo (o : Host.Outcome State Fault Refusal) (p : State → Bool) : Bool :=
  match o with
  | .next t => p t
  | _ => false

/-- Whether an outcome is this fault. -/
def faultsWith (o : Host.Outcome State Fault Refusal) (r : Fault) : Bool :=
  match o with
  | .fault q => q == r
  | _ => false

/-- Whether an outcome is this refusal. -/
def refusesWith (o : Host.Outcome State Fault Refusal) (r : Refusal) : Bool :=
  match o with
  | .refused q => q == r
  | _ => false

/-! ## WellFormed -/

theorem test_wf_pageIndex_refused : (Instr.cmdPage 16).wf = false := by decide

theorem test_wf_pageIndex_accepted : (Instr.cmdPage 15).wf = true ∧ (Instr.cmdPage 0).wf = true := by decide

/-! ## Decoding -/

/-- E20 to E25. -/
theorem test_decode_idle :
    decodeState 0b0001000000 = some .iClk ∧ decodeState 0b0001100000 = some .iClk ∧
    decodeState 0b0011000000 = some .iRst ∧ decodeState 0b0011111111 = some .iRst ∧
    decodeState 0b0000000000 = some .iSkip ∧ decodeState 0b0010000000 = some .iSkip := by decide

/-- E26 to E32. -/
theorem test_decode_transmitting :
    decodeState 0b0100100000 = some .tSetup ∧ decodeState 0b0100110111 = some .tSetup ∧
    decodeState 0b0100101000 = some .tPulse ∧ decodeState 0b0100101111 = some .tPulse ∧
    decodeState 0b0100111111 = some .tPulse ∧ decodeState 0b0100000000 = some .tWait ∧
    decodeState 0b0100010000 = some .tRstgo := by decide

/-- E33 to E38. -/
theorem test_decode_resetting :
    decodeState 0b1000010000 = some .rHold ∧ decodeState 0b1001010000 = some .rHold ∧
    decodeState 0b1000110000 = some .rHold ∧ decodeState 0b1001000000 = some .rExit ∧
    decodeState 0b1001100000 = some .rExit ∧ decodeState 0b1100000000 = none ∧ decodeState 0b1111111111 = none := by decide

/-- E1 to E9. -/
theorem test_decode_host :
    decodeHost 0b0000000000000000 = some .tick ∧ decodeHost 0b0001000000000000 = some (.subD 0x00) ∧
    decodeHost 0b0001000011111111 = some (.subD 0xFF) ∧ decodeHost 0b0001000100000000 = some (.subC 0x00) ∧
    decodeHost 0b0001000111100010 = some (.subC 0xE2) ∧ decodeHost 0b0001000010100101 = some (.subD 0xA5) ∧
    decodeHost 0b0010000000000000 = some .poll ∧ decodeHost 0b0011000000000000 = some .wait ∧
    decodeHost 0b0100000000000000 = some .rstreq := by decide

/-- E10 to E14. -/
theorem test_decode_host_reserved :
    ([0x1200, 0x1E00, 0x1FFF, 0x0001, 0x0100, 0x2001, 0x3100, 0x4001, 0x5000, 0x8000, 0xFFFF] : List HostWord).map decodeHost =
      List.replicate 11 none := by decide

/-- The rows of R97, S8 and S9. -/
theorem test_decode_payload :
    decodePayload 0b11100010 = .cmdSwreset ∧ decodePayload 0b10100010 = .cmdA2 ∧ decodePayload 0b10100000 = .cmdA0 ∧
    decodePayload 0b11001000 = .cmdC8 ∧ decodePayload 0b00100100 = .cmd24 ∧ decodePayload 0b10000001 = .cmdContrast ∧
    decodePayload 0b00101111 = .cmd2F ∧ decodePayload 0b01000000 = .cmd40 ∧ decodePayload 0b10101111 = .cmdAF ∧
    decodePayload 0b10110000 = .cmdPage 0 ∧ decodePayload 0b10111111 = .cmdPage 15 ∧
    decodePayload 0b00010000 = .cmdColhi0 ∧ decodePayload 0b00000000 = .cmdCollo0 ∧
    decodePayload 0b11101110 = .cmdRelease := by decide

/-- A command byte without a row is the submission of that byte as a command (R99). -/
theorem test_decode_payload_argument : decodePayload 0x30 = .subC 0x30 := by decide

/-- The encode direction of R94 and the page-select bytes of S9. -/
theorem test_encode :
    encode (.subC 0xE2) = .host 0x11E2 ∧ encode (.subD 0xA5) = .host 0x10A5 ∧ encode (.sub true 0x00) = .host 0x1100 ∧
    encode (.cmdPage 7) = .payload 0xB7 ∧ encode (.cmdPage 8) = .payload 0xB8 := by decide

/-- Words as the opcode table numbers them; the one word of two formats, `0x0000`, is TICK. -/
theorem test_decodeTableWord :
    decodeTableWord 16 0x0040 = some .iClk ∧ decodeTableWord 16 0x0120 = some .tSetup ∧ decodeTableWord 16 0x0000 = some .tick ∧
    decodeTableWord 16 0x1000 = some (.subD 0) ∧ decodeTableWord 16 0x4000 = some .rstreq ∧
    decodeTableWord 8 0xE2 = some .cmdSwreset ∧ decodeTableWord 8 0xB0 = some (.cmdPage 0) ∧ decodeTableWord 16 0x1200 = none ∧
    decodeTableWord 10 0x000 = some .iSkip := by decide

/-! ## Micro-operations -/

/-- L1. -/
theorem test_iClk : goesTo (exec .iClk init) (fun t => t.stateWord == 0x0C0 && t.clk == some .high && t.rst == none) = true := by
  decide

/-- L2. -/
theorem test_iRst : goesTo (exec .iRst (at_ 0x0C0 (some .high) none none))
    (fun t => t.stateWord == 0x100 && t.clk == some .high && t.rst == some .high) = true := by decide

/-- L4. -/
theorem test_iSkip : goesTo (exec .iSkip (at_ 0x000 none none none))
    (fun t => t.stateWord == 0x100 && t.clk == none && t.rst == none) = true := by decide

/-- L5. -/
theorem test_tWait : goesTo (exec .tWait rest) (fun t => t == rest) = true := by decide

/-- L6. -/
theorem test_tRstgo : goesTo (exec .tRstgo (at_ 0x110 (some .high) none (some .high)))
    (fun t => t.stateWord == 0x210 && t.rst == some .high) = true := by decide

/-- L7. -/
theorem test_rHold : goesTo (exec .rHold resetStart)
    (fun t => t.stateWord == 0x240 && t.clk == some .high && t.rst == some .low) = true := by decide

/-- L8. -/
theorem test_rExit : goesTo (exec .rExit resetHeld)
    (fun t => t.stateWord == 0x040 && t.clk == some .high && t.rst == some .low) = true := by decide

/-- B11. -/
theorem test_tSetup : goesTo (exec .tSetup { at_ 0x122 (some .high) (some .low) (some .high) with value := 0xA5 })
    (fun t => t.stateWord == 0x12A && t.clk == some .low && t.dat == some .high &&
      t.wire == [(some .high, some .low)]) = true := by decide

/-- B15: the most significant bit first. -/
theorem test_tSetup_msb : goesTo (exec .tSetup { at_ 0x120 (some .high) (some .high) (some .high) with value := 0x7F })
    (fun t => t.clk == some .low && t.dat == some .low) = true := by decide

/-- B12. -/
theorem test_tPulse : goesTo (exec .tPulse middle)
    (fun t => t.stateWord == 0x123 && t.clk == some .high && t.dat == some .high && t.wire == [(some .high, some .high)] &&
      t.rxSamples == [some .high, some .low, some .high]) = true := by decide

/-- B14: completion with a request pending, `rx` grown by the byte with its `DC`. -/
theorem test_tPulse_completion : goesTo (exec .tPulse { last with resetReq := true })
    (fun t => t.stateWord == 0x110 && t.clk == some .high && t.rx == [(some 0xA5, some .low)]) = true := by decide

/-- L3: the tick of a byte waiting in phase Idle is I.RST. -/
theorem test_tick : goesTo (exec .tick (at_ 0x0E0 (some .high) none (some .low)))
    (fun t => t.stateWord == 0x120 && t.rst == some .high) = true := by decide

/-! ## Host operations -/

/-- X1. -/
theorem test_subC : goesTo (exec (.subC 0xE2) rest)
    (fun t => t.dc == some .low && t.value == 0xE2 && t.isCommand && t.stateWord == 0x120) = true := by decide

/-- X2. -/
theorem test_subD : goesTo (exec (.subD 0x00) { rest with dc := some .low })
    (fun t => t.dc == some .high && t.value == 0x00 && !t.isCommand && t.stateWord == 0x120) = true := by decide

/-- R170, both kinds. -/
theorem test_sub : goesTo (exec (.sub false 0x55) rest) (fun t => t.dc == some .high && t.value == 0x55 && t.ready) = true ∧
    goesTo (exec (.sub true 0x55) rest) (fun t => t.dc == some .low && t.isCommand) = true := by decide

/-- X3. -/
theorem test_sub_full : faultsWith (exec (.subD 0x34) full) (.contractViolation .reentrant) = true := by decide

/-- X4 and X5. -/
theorem test_poll : goesTo (exec .poll init) (fun t => t.lastPoll == some false) = true ∧
    goesTo (exec .poll full) (fun t => t.lastPoll == some true && t.stateWord == full.stateWord) = true := by decide

/-- X7. -/
theorem test_wait : goesTo (exec .wait rest) (fun t => t == rest) = true := by decide

/-- X8: the step is a tick and the host stays. -/
theorem test_wait_held : goesTo (step (State.doing full [.word 0x3000]))
    (fun t => t.stateWord == 0x128 && t.host == [.word 0x3000]) = true := by decide

/-- X9 and X10. -/
theorem test_rstreq : goesTo (exec .rstreq rest) (fun t => t == { rest with resetReq := true }) = true ∧
    goesTo (exec .rstreq resetStart) (fun t => t == resetStart) = true := by decide

/-- X12: a tick between the micro-steps of a SUB is T.WAIT. -/
theorem test_subStep : goesTo (step (State.doing halfway [.word 0x0000, .subStep (.writeKind true), .subStep .publish]))
    (fun t => t.stateWord == 0x100 && t.host == [.subStep (.writeKind true), .subStep .publish]) = true := by decide

/-- R68 item 1: a publish before its writes is refused, and one after them publishes them. -/
theorem test_subStep_order :
    refusesWith (step (State.doing rest [.subStep .publish])) (.subStepOutOfOrder .publish) = true ∧
    refusesWith (step (State.doing halfway [.subStep .publish])) (.subStepOutOfOrder .publish) = true ∧
    goesTo (step (State.doing { halfway with isCommand := true, subDone := halfway.subDone ++ [.writeKind true] } [.subStep .publish]))
      (fun t => t.ready && t.value == 0x5A && t.isCommand && t.subDone == []) = true := by decide

/-! ## Command bytes -/

/-- Whether an instruction submits this byte as a command. -/
def submits (i : Instr) (b : Byte) : Bool :=
  goesTo (exec i rest) (fun t => t == { rest with dc := some .low, value := b, isCommand := true, ready := true, subDone := [] })

/-- The bytes of R97. -/
theorem test_commands :
    submits .cmdSwreset 0xE2 = true ∧ submits .cmdA2 0xA2 = true ∧ submits .cmdA0 0xA0 = true ∧ submits .cmdC8 0xC8 = true ∧
    submits .cmd24 0x24 = true ∧ submits .cmdContrast 0x81 = true ∧ submits .cmd2F 0x2F = true ∧ submits .cmd40 0x40 = true ∧
    submits .cmdAF 0xAF = true ∧ submits .cmdColhi0 0x10 = true ∧ submits .cmdCollo0 0x00 = true ∧
    submits .cmdRelease 0xEE = true := by decide

/-- S9. -/
theorem test_cmdPage : submits (.cmdPage 0) 0xB0 = true ∧ submits (.cmdPage 8) 0xB8 = true ∧ submits (.cmdPage 15) 0xBF = true := by
  decide

/-! ## The register binding (vectors under X12) -/

theorem test_bus_txdata :
    goesTo (step (State.doing rest [.bus (.write 0x0 4 0x000001E2)])) (fun t => t.value == 0xE2 && t.isCommand) = true ∧
    goesTo (step (State.doing rest [.bus (.write 0x0 4 0xFFFFFE55)])) (fun t => t.value == 0x55 && !t.isCommand) = true := by
  decide

theorem test_bus_status :
    goesTo (step (State.doing full [.bus (.read 0x4 4)])) (fun t => t.busData == some 0x00000001) = true ∧
    goesTo (step (State.doing rest [.bus (.read 0x4 4)])) (fun t => t.busData == some 0x00000000) = true := by decide

theorem test_bus_ctrl :
    goesTo (step (State.doing rest [.bus (.write 0x8 4 0x00000001)])) (fun t => t == { rest with resetReq := true }) = true ∧
    goesTo (step (State.doing rest [.bus (.write 0x8 4 0x00000002)])) (fun t => t == rest) = true := by decide

theorem test_bus_outside : refusesWith (step (State.doing rest [.bus (.read 0x4 1)])) (.busOutsideBinding (.read 0x4 1)) = true := by
  decide

/-! ## Host sequences -/

/-- H3 and H4's last step. -/
theorem test_setPx : goesTo (step (State.doing init [.setPx 5 13 true])) (fun t => t.column 1 5 == 0x20) = true ∧
    goesTo (step (State.doing { init with buf := [(2, 0x81)] } [.setPx 2 0 false])) (fun t => t.column 0 2 == 0x80) = true := by
  decide

/-- H5, at the edges of this configuration. -/
theorem test_setPx_outside :
    faultsWith (step (State.doing init [.setPx 8 0 true])) (.contractViolation .coordinates) = true ∧
    faultsWith (step (State.doing init [.setPx 0 16 true])) (.contractViolation .coordinates) = true := by decide

/-- H1. -/
theorem test_clrBuf : goesTo (step (State.doing { init with buf := [(2, 0x81), (9, 0x01)] } [.clrBuf])) (fun t => t.buf == []) = true := by
  decide

/-- H6, with a glyph written out. -/
theorem test_blit : goesTo (step (State.doing init [.blit 0 1 #v[0x7E, 0x11, 0x11, 0x00, 0x7E]]))
    (fun t => (List.range 6).map (t.column 1) == [0x7E, 0x11, 0x11, 0x00, 0x7E, 0x00] && t.column 0 7 == 0x00) = true := by decide

/-- H7. -/
theorem test_blit_outside : faultsWith (step (State.doing init [.blit 4 0 #v[0, 0, 0, 0, 0]])) (.contractViolation .coordinates) = true := by
  decide

/-- H8 and H9. -/
theorem test_contrast : (contrastLines 0x20).flatMap HostLine.words = [0x1181, 0x3000, 0x1120, 0x3000] ∧
    refusesWith (step (State.doing init [.contrast 0x40])) (.contrastOutOfRange 0x40) = true := by decide

/-- The words of P6. -/
theorem test_initLines : (initLines cfg).flatMap HostLine.words =
    [0x11E2, 0x3000, 0x11A2, 0x3000, 0x11A0, 0x3000, 0x11C8, 0x3000, 0x1124, 0x3000, 0x1181, 0x3000, 0x1130, 0x3000, 0x112F, 0x3000,
      0x1140, 0x3000, 0x11AF, 0x3000] := by decide

/-- P4's words, for 4 columns. -/
theorem test_frameLines :
    (frameLines { init with cfg := { cfg with cols := 4 }, buf := [(0, 0x01)] }).flatMap HostLine.words =
    [0x11B0, 0x3000, 0x1110, 0x3000, 0x1100, 0x3000, 0x1001, 0x3000, 0x1000, 0x3000, 0x1000, 0x3000, 0x1000, 0x3000,
      0x11B1, 0x3000, 0x1110, 0x3000, 0x1100, 0x3000, 0x1000, 0x3000, 0x1000, 0x3000, 0x1000, 0x3000, 0x1000, 0x3000,
      0x11EE, 0x3000] := by decide

/-- B3. -/
theorem test_waveform : waveform 0xA5 =
    [(some .high, some .low), (some .high, some .high), (some .low, some .low), (some .low, some .high),
      (some .high, some .low), (some .high, some .high), (some .low, some .low), (some .low, some .high),
      (some .low, some .low), (some .low, some .high), (some .high, some .low), (some .high, some .high),
      (some .low, some .low), (some .low, some .high), (some .high, some .low), (some .high, some .high)] := by decide

/-! ## The states of the witnesses meet the invariants -/

theorem link_init : LinkInv init := by
  constructor
  · exact ⟨rfl, rfl⟩
  all_goals decide

theorem link_rest : LinkInv rest := by
  constructor
  · exact ⟨rfl, rfl⟩
  all_goals decide

theorem link_full : LinkInv full := by
  constructor
  · exact ⟨rfl, rfl⟩
  all_goals decide

theorem link_middle : LinkInv middle := by
  constructor
  · exact ⟨rfl, rfl⟩
  all_goals decide

theorem link_last : LinkInv last := by
  constructor
  · exact ⟨rfl, rfl⟩
  all_goals decide

theorem link_resetStart : LinkInv resetStart := by
  constructor
  · exact ⟨rfl, rfl⟩
  all_goals decide

theorem link_resetHeld : LinkInv resetHeld := by
  constructor
  · exact ⟨rfl, rfl⟩
  all_goals decide

theorem link_waiting : LinkInv waiting := by
  constructor
  · exact ⟨rfl, rfl⟩
  all_goals decide

theorem receiver_waiting : ReceiverInv waiting := by
  constructor <;> decide

theorem link_idleAgain : LinkInv idleAgain := by
  constructor
  · exact ⟨rfl, rfl⟩
  all_goals decide

theorem link_idleSecond : LinkInv idleSecond := by
  constructor
  · exact ⟨rfl, rfl⟩
  all_goals decide

theorem receiver_all :
    ReceiverInv init ∧ ReceiverInv rest ∧ ReceiverInv full ∧ ReceiverInv middle ∧ ReceiverInv last ∧ ReceiverInv resetStart ∧
    ReceiverInv resetHeld ∧ ReceiverInv idleAgain ∧ ReceiverInv idleSecond := by
  refine ⟨?_, ?_, ?_, ?_, ?_, ?_, ?_, ?_, ?_⟩ <;> constructor <;> decide

/-- The invariants say nothing of what the host has still to do. -/
theorem link_doing {s : State} (h : LinkInv s) (ls : List HostLine) : LinkInv (State.doing s ls) :=
  ⟨h.levels, h.subStart, h.emptySlotAtStart, h.otherPhaseAtStart, h.idlePending, h.transmittingReleased, h.resettingForm,
    h.clkUndriven, h.rstUndriven, h.clkHigh, h.clkLow, h.idleNotReleased⟩

theorem link_withRequest {s : State} (h : LinkInv s) (hs : s.phase ≠ .resetting) : LinkInv { s with resetReq := true } :=
  ⟨h.levels, h.subStart, h.emptySlotAtStart, h.otherPhaseAtStart, h.idlePending, h.transmittingReleased,
    fun hp => absurd hp hs, h.clkUndriven, h.rstUndriven, h.clkHigh, h.clkLow, h.idleNotReleased⟩

/-- Nor of a byte that is waiting at the start of its sixteen ticks. -/
theorem link_withByte {s : State} (h : LinkInv s) : LinkInv { s with ready := true } :=
  ⟨h.levels, h.subStart, (fun h => nomatch h), h.otherPhaseAtStart, h.idlePending, h.transmittingReleased, h.resettingForm,
    h.clkUndriven, h.rstUndriven, h.clkHigh, h.clkLow, h.idleNotReleased⟩

/-! ## Witnesses: each meets every hypothesis of the statement it names, clause by clause -/

theorem witness_StateWordUnpacksAndRuns : decodeState 0x0FF = some .iRst ∧ decodeState 0x000 = some .iSkip ∧
    decodeState 0x2EF = some .rExit := by decide

theorem witness_DecodeOfEncodeIsTheInstruction :
    (Instr.cmdPage 0).wf = true ∧ (Instr.cmdPage 15).wf = true ∧ (Instr.sub false 0xFF).wf = true := by decide

theorem witness_EncodeOfDecodeIsTheHostWord : decodeHost 0x10FF = some (.subD 0xFF) ∧ decodeHost 0x11FF = some (.subC 0xFF) ∧
    decodeHost 0x0000 = some .tick := by decide

theorem witness_ReservedHostWordsAreRefused :
    ([0x0001, 0x0FFF, 0x1200, 0x2001, 0x3100, 0x4001, 0x5000, 0xFFFF] : List HostWord).all (fun w =>
      (State.doing full [.word w]).host == [.word w] && w &&& 0xFFFF != 0x0000 && w &&& 0xFE00 != 0x1000 &&
      w &&& 0xFFFF != 0x2000 && w &&& 0xFFFF != 0x3000 && w &&& 0xFFFF != 0x4000 &&
      refusesWith (step (State.doing full [.word w])) (.reservedHostWord w)) = true := by decide

theorem witness_TPulseLatchesAndAdvances : middle.bitIndex ≠ 7#3 ∧ (at_ 0x12E none none none).bitIndex ≠ 7#3 ∧ last.bitIndex = 7#3 := by
  decide

theorem witness_TickDispatchesInOrder :
    (init.phase = .idle ∧ init.rstPending = true ∧ init.sub = .assertClockIdle) ∧
    (idleSecond.phase = .idle ∧ idleSecond.rstPending = true ∧ idleSecond.sub = .assertReset) ∧
    ((at_ 0x080 none none none).phase = .idle ∧ (at_ 0x080 none none none).rstPending = false) ∧
    (full.phase = .transmitting ∧ full.ready = true ∧ full.halfPhase = .dataSetup) ∧
    (last.phase = .transmitting ∧ last.ready = true ∧ last.halfPhase = .clockPulse) ∧
    ((at_ 0x110 none none none).phase = .transmitting ∧ (at_ 0x110 none none none).ready = false ∧
      (at_ 0x110 none none none).resetReq = true) ∧
    (rest.phase = .transmitting ∧ rest.ready = false ∧ rest.resetReq = false) ∧
    (resetStart.phase = .resetting ∧ resetStart.resetReq = true) ∧
    (resetHeld.phase = .resetting ∧ resetHeld.resetReq = false) := by decide

theorem witness_SubPublishesTheByte : rest.ready = false ∧ (0x1000 : HostWord) &&& 0xFE00 = 0x1000 ∧
    (0x11FF : HostWord) &&& 0xFE00 = 0x1000 := by decide

theorem witness_SubOnFullSlotIsAViolation : full.ready = true ∧ last.ready = true := by decide

theorem witness_CommandBytesAreSubmittedAsCommands : rest.ready = false ∧ 15 ≤ 15 := by decide

theorem witness_WaitPassesOnlyOnAnEmptySlot :
    ((State.doing rest [.word 0x3000]).host = [.word 0x3000] ∧ (State.doing rest [.word 0x3000]).ready = false) ∧
    ((State.doing last [.word 0x3000]).host = [.word 0x3000] ∧ (State.doing last [.word 0x3000]).ready = true) := by decide

theorem witness_RstreqOnlySetsTheRequest : resetStart.resetReq = true ∧ rest.resetReq = false := by decide

theorem witness_HostOperationsLeaveTheTickAgentsState :
    goesTo (exec .rstreq full) (fun t => t.ready && t.resetReq) = true ∧ full.ready = true ∧
    goesTo (exec (.cmdPage 15) rest) (fun t => t.phase == rest.phase) = true ∧
    goesTo (exec .poll resetStart) (fun t => t.resetReq) = true ∧ resetStart.resetReq = true := by decide

theorem witness_SubMicroStepsComposeToSub : (rest.ready = false ∧ rest.subDone = []) ∧
    ((State.doing halfway [.subStep .publish]).host = [.subStep .publish] ∧ halfway.ready = false ∧
      SubStep.follows halfway.subDone .publish = false) ∧
    LinkInv resetStart ∧ resetStart.ready = false ∧ SubStep.writeValue 0x12 ≠ .publish ∧ ∃ t, exec .tick resetStart = .next t :=
  ⟨⟨rfl, rfl⟩, ⟨rfl, rfl, rfl⟩, link_resetStart, rfl, by decide, _, rfl⟩

theorem witness_StepRunsTheSelectedMicroOperation :
    (init.host = [] ∧ decodeState init.stateWord = some .iClk) ∧
    ((State.doing last [.word 0x3000]).ready = true ∧ (State.doing last [.word 0x3000]).host = [.word 0x3000] ∧
      decodeState (State.doing last [.word 0x3000]).stateWord = some .tPulse) := by decide

theorem witness_StepRunsTheDecodedHostWord :
    (State.doing rest [.word 0x3000]).host = [.word 0x3000] ∧ ¬((State.doing rest [.word 0x3000]).ready = true) ∧
    decode (.host 0x3000) = .ok .wait ∧ (State.doing full [.word 0x2000]).host = [.word 0x2000] ∧
    ¬((0x2000 : HostWord) = 0x3000) ∧ decode (.host 0x2000) = .ok .poll :=
  ⟨rfl, by decide, rfl, rfl, by decide, rfl⟩

theorem witness_StepRunsTheDecodedCommandByte : (State.doing rest [.command 0xBF]).host = [.command 0xBF] ∧
    decode (.payload 0xBF) = .ok (.cmdPage 15) := ⟨rfl, rfl⟩

theorem witness_BusAccessesFollowTheBinding :
    (State.doing rest [.bus (.write 0x0 4 0x1FF)]).host = [.bus (.write 0x0 4 0x1FF)] ∧
    (State.doing rest [.bus (.read 0x4 4)]).host = [.bus (.read 0x4 4)] ∧
    (State.doing rest [.bus (.write 0x8 4 1)]).host = [.bus (.write 0x8 4 1)] ∧
    (State.doing rest [.bus (.write 0x4 4 1)]).host = [.bus (.write 0x4 4 1)] ∧
    (State.doing rest [.bus (.read 0x0 4)]).host = [.bus (.read 0x0 4)] ∧
    (State.doing rest [.bus (.read 0x8 4)]).host = [.bus (.read 0x8 4)] ∧
    refusesWith (step (State.doing rest [.bus (.write 0x8 2 1)])) (.busOutsideBinding (.write 0x8 2 1)) = true ∧
    refusesWith (step (State.doing rest [.bus (.read 0xC 4)])) (.busOutsideBinding (.read 0xC 4)) = true ∧
    refusesWith (step (State.doing rest [.bus (.read 0x2 4)])) (.busOutsideBinding (.read 0x2 4)) = true := by decide

theorem witness_ResetIsTheInitialisationState : cfg.hasRegen = true := rfl

/-- The runs' states after 0, 1 and 2 ticks of a host that submits a byte between the ticks, with a reset pending and without one. -/
theorem witness_PowerUpTakesTwoTicks : cfg.initRstPending = true ∧ { cfg with initRstPending := false }.initRstPending = false ∧
    (let s := { State.resetWith cfg with host := [.word 0x0000, .subb true 0xE2] }
     (∃ t, runSteps 0 s = .next t) ∧ tickCount 0 s = 0 ∧ (∃ t, runSteps 2 s = .next t) ∧ tickCount 2 s = 1 ∧
       (∃ t, runSteps 3 s = .next t) ∧ tickCount 3 s = 2) ∧
    (let s := { State.resetWith { cfg with initRstPending := false } with host := [.word 0x0000, .subb true 0xE2] }
     (∃ t, runSteps 0 s = .next t) ∧ tickCount 0 s = 0 ∧ (∃ t, runSteps 2 s = .next t) ∧ tickCount 2 s = 1) :=
  ⟨rfl, rfl, ⟨⟨_, rfl⟩, rfl, ⟨_, rfl⟩, rfl, ⟨_, rfl⟩, rfl⟩, ⟨_, rfl⟩, rfl, ⟨_, rfl⟩, rfl⟩

theorem witness_InvariantsHoldAtReset : DefaultLevels cfg ∧ cfg.initRstPending = true := ⟨⟨rfl, rfl⟩, rfl⟩

theorem witness_LinkInvariantIsKept : LinkInv last ∧ ∃ t, step last = .next t := ⟨link_last, _, rfl⟩

theorem witness_ReceiverInvariantIsKept : LinkInv last ∧ ReceiverInv last ∧ (∃ t, step last = .next t) ∧ LinkInv middle ∧
    ReceiverInv middle ∧ ∃ t, step middle = .next t :=
  ⟨link_last, receiver_all.2.2.2.2.1, ⟨_, rfl⟩, link_middle, receiver_all.2.2.2.1, _, rfl⟩

theorem writes_halfway (ls : List HostLine) : SubWritesInPlace (State.doing halfway ls) := by
  intro m hm
  rcases List.mem_cons.mp hm with rfl | hm
  · rfl
  · rw [List.mem_singleton.mp hm]; rfl

/-- A full slot, and a SUB half written out. -/
theorem witness_KindStaysOnTheLine :
    (SubWritesInPlace (State.doing full [waitLine]) ∧ KindOnLine (State.doing full [waitLine]) ∧
      (State.doing full [waitLine]).ready = true ∧ ∃ t, step (State.doing full [waitLine]) = .next t) ∧
    SubWritesInPlace (State.doing halfway [.subStep (.writeKind true)]) ∧ KindOnLine (State.doing halfway [.subStep (.writeKind true)]) ∧
    ∃ t, step (State.doing halfway [.subStep (.writeKind true)]) = .next t :=
  ⟨⟨(fun _ h => nomatch h), fun _ => rfl, rfl, _, rfl⟩, writes_halfway _, (fun h => nomatch h), _, rfl⟩

theorem witness_OnlyAWholeSubmissionFillsTheSlot : SubWritesInPlace (State.doing rest [.bus (.write 0x0 4 0x1FF)]) ∧
    rest.ready = false ∧ hostSubmits (State.doing rest [.bus (.write 0x0 4 0x1FF)]) = some (true, 0xFF) ∧
    goesTo (step (State.doing rest [.bus (.write 0x0 4 0x1FF)])) (fun t => t.ready) = true ∧
    SubWritesInPlace (State.doing { halfway with isCommand := true, subDone := halfway.subDone ++ [.writeKind true] }
      [.subStep .publish]) ∧
    goesTo (step (State.doing { halfway with isCommand := true, subDone := halfway.subDone ++ [.writeKind true] }
      [.subStep .publish])) (fun t => t.ready) = true :=
  ⟨(fun _ h => nomatch h), rfl, by decide, by decide, by unfold SubWritesInPlace; decide, by decide⟩

theorem witness_StaticLinesAreNeverDriven : StaticLines init ∧ ∃ t, step init = .next t := ⟨⟨rfl, rfl⟩, _, rfl⟩

theorem witness_PixelBufferKeepsItsForm :
    cfg.wf ∧ Memory.wf [(0, 0x01), (15, 0x80)] = true ∧ BufferInside { init with buf := [(0, 0x01), (15, 0x80)] } ∧
    (∃ t, step (State.doing { init with buf := [(0, 0x01), (15, 0x80)] } [.setPx 7 15 true]) = .next t) ∧
    ∃ u, exec .tick { init with buf := [(0, 0x01), (15, 0x80)] } = .next u :=
  ⟨by decide, by decide, by unfold BufferInside; decide, ⟨_, rfl⟩, _, rfl⟩

theorem witness_ClockEdgesAreSetupAndPulse : LinkInv full ∧ (∃ t, step full = .next t) ∧ LinkInv last ∧
    ∃ t, exec .tick last = .next t := ⟨link_full, ⟨_, rfl⟩, link_last, _, rfl⟩

theorem witness_PhaseFollowsTheTransitionTable :
    goesTo (step idleSecond) (fun t => t.phase == .transmitting) = true ∧
    goesTo (step { rest with resetReq := true }) (fun t => t.phase == .resetting) = true ∧
    goesTo (step resetHeld) (fun t => t.phase == .idle) = true := by decide

theorem witness_FullSlotIsLeftAloneUntilCompletion : full.ready = true ∧ goesTo (step full) (fun t => t.ready) = true ∧
    last.ready = true ∧ goesTo (step last) (fun t => !t.ready) = true := by decide

theorem witness_TickWritesOnlyItsOwnState : goesTo (exec .tick full) (fun t => t.ready) = true ∧
    goesTo (exec .tick { rest with resetReq := true }) (fun t => t.resetReq) = true ∧
    stepTicks (State.doing last [.word 0x3000]) = true ∧ stepTicks (State.doing rest [.delay 1]) = true ∧
    stepTicks (State.doing rest [.delay 0]) = false ∧ goesTo (step (State.doing rest [.delay 0])) (fun _ => true) = true ∧
    stepTicks (State.doing rest [.word 0x3000]) = false ∧ goesTo (step (State.doing rest [.word 0x3000])) (fun _ => true) = true := by
  decide

theorem witness_ResetRequestIsNeverLost : resetStart.resetReq = true ∧ goesTo (step resetStart) (fun t => !t.resetReq) = true := by
  decide

theorem witness_ResetRequestIsDeferredPastTheByte : last.phase = .transmitting ∧ last.ready = true ∧
    goesTo (exec .tick { last with resetReq := true }) (fun t => t.resetReq) = true := by decide

theorem witness_SixteenTicksSendTheByte : LinkInv full ∧ ReceiverInv full ∧ HostWaits full ∧ full.phase = .transmitting ∧
    full.ready = true ∧ full.bitIndex = 0#3 ∧ full.halfPhase = .dataSetup :=
  ⟨link_full, receiver_all.2.2.1, .inl rfl, rfl, rfl, rfl, rfl⟩

/-- One state in each row of R153's table. -/
theorem witness_ByteCompletesWithinItsLatency :
    ((exec (.subC 0xA5) rest) = .next full ∧ ticksToCompletion full = 16) ∧
    ([idleSecond, idleAgain, resetHeld, resetStart].map fun s =>
      (s.host, s.bitIndex, s.halfPhase, ticksToCompletion { s with ready := true })) =
      [([], 0, .dataSetup, 17), ([], 0, .dataSetup, 18), ([], 0, .dataSetup, 19), ([], 0, .dataSetup, 20)] ∧
    LinkInv full ∧ ReceiverInv full ∧ HostWaits full ∧ full.ready = true ∧ full.bitIndex = 0#3 ∧ full.halfPhase = .dataSetup ∧
    LinkInv waiting ∧ ReceiverInv waiting ∧ HostWaits waiting ∧ waiting.ready = true ∧ ticksToCompletion waiting = 20 ∧
    (LinkInv { resetHeld with ready := true } ∧ ReceiverInv { resetHeld with ready := true }) ∧
    (LinkInv { idleAgain with ready := true } ∧ ReceiverInv { idleAgain with ready := true }) ∧
    LinkInv { idleSecond with ready := true } ∧ ReceiverInv { idleSecond with ready := true } :=
  ⟨⟨rfl, rfl⟩, by decide, link_full, receiver_all.2.2.1, .inl rfl, rfl, rfl, rfl, link_waiting, receiver_waiting, .inl rfl, rfl, rfl,
    ⟨link_withByte link_resetHeld, ⟨receiver_all.2.2.2.2.2.2.1.samples, receiver_all.2.2.2.2.2.2.1.dataHeld⟩⟩,
    ⟨link_withByte link_idleAgain, ⟨receiver_all.2.2.2.2.2.2.2.1.samples, receiver_all.2.2.2.2.2.2.2.1.dataHeld⟩⟩,
    link_withByte link_idleSecond, ⟨receiver_all.2.2.2.2.2.2.2.2.samples, receiver_all.2.2.2.2.2.2.2.2.dataHeld⟩⟩

theorem witness_OnlySubmittedBytesAreReceived : LinkInv last ∧ ReceiverInv last ∧
    goesTo (step last) (fun t => t.rx == [(some 0xA5, some .low)]) = true :=
  ⟨link_last, receiver_all.2.2.2.2.1, by decide⟩

/-- Two bytes with a tick, a poll and a request between them. -/
theorem witness_BlockingHostLosesNoByte :
    LinkInv (State.doing resetHeld [.subb true 0x10, .word 0x0000, .word 0x2000, .word 0x4000, .word 0x3000, .subb false 0xFF]) ∧
    ReceiverInv (State.doing resetHeld [.subb true 0x10, .word 0x0000, .word 0x2000, .word 0x4000, .word 0x3000, .subb false 0xFF]) ∧
    resetHeld.ready = false ∧
    ([.subb true 0x10, .word 0x0000, .word 0x2000, .word 0x4000, .word 0x3000, .subb false 0xFF] : List HostLine).all
      HostLine.blocking = true :=
  ⟨link_doing link_resetHeld _, ⟨receiver_all.2.2.2.2.2.2.1.samples, receiver_all.2.2.2.2.2.2.1.dataHeld⟩, rfl, by decide⟩

theorem witness_MinimalResetPassTimeline : LinkInv { rest with resetReq := true } ∧ rest.host = [] ∧ rest.phase = .transmitting ∧
    rest.ready = false := ⟨link_withRequest link_rest (by decide), rfl, rfl, rfl⟩

/-- No request in the gap, and three (P5). -/
theorem witness_RequestsInOneGapCoalesce :
    ∀ n ∈ [0, 3], LinkInv (State.doing resetHeld (List.replicate n (.word 0x4000) ++ [.word 0x0000])) ∧
      resetHeld.phase = .resetting ∧ resetHeld.rstPending = true ∧ resetHeld.resetReq = false :=
  fun _ _ => ⟨link_doing link_resetHeld _, rfl, rfl, rfl⟩

/-- Both orders of P3. -/
theorem witness_RequestThenByteHasTwoOrders :
    LinkInv (State.doing rest [.word 0x4000, .word (subWord true 0xAF), .word 0x0000]) ∧
    LinkInv (State.doing rest [.word 0x4000, .word 0x0000, .word (subWord true 0xAF), .word 0x0000]) ∧
    rest.phase = .transmitting ∧ rest.ready = false ∧ rest.resetReq = false :=
  ⟨link_doing link_rest _, link_doing link_rest _, rfl, rfl, rfl⟩

theorem witness_SetPixelChangesOnePixel : 7 < init.cfg.cols ∧ 15 < init.cfg.rows ∧ init.buf.wf = true ∧ (6, 15) ≠ (7, 15) ∧
    15 / 8 * init.cfg.cols + 7 = 15 ∧ (State.doing init [.setPx 7 15 true]).host = [.setPx 7 15 true] ∧ ¬(8 < init.cfg.cols ∧ 0 < init.cfg.rows) ∧ ¬(0 < init.cfg.cols ∧ 16 < init.cfg.rows) := by
  decide

theorem witness_ClearBufferTurnsEveryPixelOff : (State.doing full [.clrBuf]).host = [.clrBuf] := rfl

theorem witness_BlitCopiesFiveColumns : (State.doing init [.blit 3 1 #v[1, 2, 3, 4, 5]]).host = [.blit 3 1 #v[1, 2, 3, 4, 5]] ∧
    1 < init.cfg.pages ∧ 3 + 5 ≤ init.cfg.cols ∧ init.buf.wf = true ∧
    ¬(1 < init.cfg.pages ∧ 4 + 5 ≤ init.cfg.cols) ∧ ¬(2 < init.cfg.pages ∧ 0 + 5 ≤ init.cfg.cols) := by decide

theorem witness_ContrastSendsTwoCommandsInRange :
    (State.doing rest [.contrast 0x3F]).host = [.contrast 0x3F] ∧ (0x3F : Byte).toNat ≤ 0x3F ∧
    (State.doing rest [.contrast 0x40]).host = [.contrast 0x40] ∧ 0x3F < (0x40 : Byte).toNat := by decide

theorem witness_InitSendsTheTenCommands : (State.doing full [.delay 0]).host = [.delay 0] ∧
    (State.doing full [.delay 3]).host = [.delay 3] ∧ LinkInv (State.doing init [.init]) ∧ ReceiverInv (State.doing init [.init]) ∧
    (State.doing init [.init]).ready = false ∧ (State.doing init [.init]).host = [.init] :=
  ⟨rfl, rfl, link_doing link_init _, ⟨receiver_all.1.samples, receiver_all.1.dataHeld⟩, rfl, rfl⟩

theorem witness_FrameSendsTheBuffer : LinkInv (State.doing resetStart [.frame]) ∧ ReceiverInv (State.doing resetStart [.frame]) ∧
    (State.doing resetStart [.frame]).ready = false ∧ (State.doing resetStart [.frame]).host = [.frame] :=
  ⟨link_doing link_resetStart _, ⟨receiver_all.2.2.2.2.2.1.samples, receiver_all.2.2.2.2.2.1.dataHeld⟩, rfl, rfl⟩

theorem witness_EndToEndScenarioStream : DefaultLevels cfg ∧ cfg.initRstPending = true ∧ cfg.wf :=
  ⟨⟨rfl, rfl⟩, rfl, by decide⟩

end Sys2Proof.Tests
end

/-! PROOF. The packed state word of R41 read back field by field: the three low bits are `bitIndex`, and the seven above them are
the phase with the flags appended one bit at a time. -/

namespace Sys2Proof.Machine

/-- `bitIndex` takes three bits, so bit `i + 3` of the word is bit `i` of the phase followed by the five flags. -/
theorem stateWord_getLsbD_add_three (s : State) (i : Nat) : s.stateWord.getLsbD (i + 3) =
    (((((s.phase.code.concat s.sub.code).concat s.rstPending).concat s.ready).concat s.resetReq).concat
      s.halfPhase.code).getLsbD i := by
  simp only [← BitVec.append_ofBool]
  refine BitVec.getLsbD_append.trans ?_
  rw [if_neg (by omega), Nat.add_sub_cancel]

theorem stateWord_extractLsb'_bitIndex (s : State) : s.stateWord.extractLsb' 0 3 = s.bitIndex :=
  BitVec.extractLsb'_append_eq_right

theorem stateWord_getLsbD_halfPhase (s : State) : s.stateWord.getLsbD 3 = s.halfPhase.code :=
  (stateWord_getLsbD_add_three s 0).trans BitVec.getLsbD_concat_zero

theorem stateWord_getLsbD_resetReq (s : State) : s.stateWord.getLsbD 4 = s.resetReq :=
  (stateWord_getLsbD_add_three s 1).trans (by simp only [BitVec.getLsbD_concat_succ, BitVec.getLsbD_concat_zero])

theorem stateWord_getLsbD_ready (s : State) : s.stateWord.getLsbD 5 = s.ready :=
  (stateWord_getLsbD_add_three s 2).trans (by simp only [BitVec.getLsbD_concat_succ, BitVec.getLsbD_concat_zero])

theorem stateWord_getLsbD_rstPending (s : State) : s.stateWord.getLsbD 6 = s.rstPending :=
  (stateWord_getLsbD_add_three s 3).trans (by simp only [BitVec.getLsbD_concat_succ, BitVec.getLsbD_concat_zero])

theorem stateWord_getLsbD_sub (s : State) : s.stateWord.getLsbD 7 = s.sub.code :=
  (stateWord_getLsbD_add_three s 4).trans (by simp only [BitVec.getLsbD_concat_succ, BitVec.getLsbD_concat_zero])

theorem stateWord_extractLsb'_phase (s : State) : s.stateWord.extractLsb' 8 2 = s.phase.code := by
  refine BitVec.eq_of_getLsbD_eq fun i hi => ?_
  have above_flags : 8 + i = i + 5 + 3 := by omega
  rw [BitVec.getLsbD_extractLsb', above_flags, stateWord_getLsbD_add_three]
  simp [hi]

/-- Settles O2: each field is read back from its own place in the concatenation. -/
theorem stateWordPacksTheFields : Obligations.StateWordPacksTheFields := fun s =>
  ⟨stateWord_extractLsb'_phase s, stateWord_getLsbD_sub s, stateWord_getLsbD_rstPending s, stateWord_getLsbD_ready s,
    stateWord_getLsbD_resetReq s, stateWord_getLsbD_halfPhase s, stateWord_extractLsb'_bitIndex s⟩

end Sys2Proof.Machine

/-! PROOF. A micro-operation's encoding is its row of R95: the rows exclude each other, so their order does not matter. -/

namespace Sys2Proof.Machine

/-- Any two rows of R95 differ in a bit that both of them test. -/
theorem stateRows_agree : ∀ r ∈ stateRows, ∀ q ∈ stateRows, r.pat &&& q.mask = q.pat &&& r.mask → r = q := by decide

theorem stateRows_instr_inj : ∀ r ∈ stateRows, ∀ q ∈ stateRows, r.instr = q.instr → r = q := by decide

/-- No word matches two rows of R95. -/
theorem StateRow.matches_unique {r q : StateRow} {w : StateWord} (hr : r ∈ stateRows) (hq : q ∈ stateRows)
    (hrw : r.matches w = true) (hqw : q.matches w = true) : r = q := by
  refine stateRows_agree r hr q hq ?_
  rw [← beq_iff_eq.mp hrw, ← beq_iff_eq.mp hqw, BitVec.and_assoc, BitVec.and_comm r.mask, ← BitVec.and_assoc]

/-- The table answers a row of its own exactly on the words that match this row. -/
theorem stateRows_find?_iff {r : StateRow} (hr : r ∈ stateRows) (w : StateWord) :
    stateRows.find? (·.matches w) = some r ↔ r.matches w = true := by
  refine ⟨List.find?_some, fun hrw => ?_⟩
  obtain ⟨q, hq⟩ : ∃ q, stateRows.find? (·.matches w) = some q :=
    Option.isSome_iff_exists.mp (List.find?_isSome.mpr ⟨r, hr, hrw⟩)
  have hqw := List.find?_some hq
  rw [hq, StateRow.matches_unique hr (List.mem_of_find?_eq_some hq) hrw hqw]

/-- A state word decodes to a row's micro-operation exactly when it agrees with the row's pattern under the row's mask. -/
theorem decodeState_row {r : StateRow} (hr : r ∈ stateRows) (w : StateWord) :
    decodeState w = some r.instr ↔ w &&& r.mask = r.pat := by
  have find : decodeState w = some r.instr ↔ stateRows.find? (·.matches w) = some r := by
    refine Option.map_eq_some_iff.trans ⟨?_, fun h => ⟨r, h, rfl⟩⟩
    rintro ⟨q, hq, hi⟩
    rw [hq, stateRows_instr_inj q (List.mem_of_find?_eq_some hq) r hr hi]
  exact find.trans ((stateRows_find?_iff hr w).trans beq_iff_eq)

end Sys2Proof.Machine

/-! PROOF. The two halves of a bit period (40_bit_clocker.md). -/

namespace Sys2Proof.Machine

/-- The data-setup half never completes a byte, so the slot is left alone (R121). -/
theorem exec_tSetup (s : State) : exec .tSetup s =
    .next (s.observed { s with
      dat := some (Level.ofBit (selectedBit s.value s.bitIndex)), clk := some .low, halfPhase := .clockPulse }).emitWire := rfl

theorem pulseHalf_status_of_ne {s : State} (h : s.bitIndex ≠ 7#3) : (pulseHalf s).2 = .byteInProgress := if_neg h

theorem pulseHalf_status_of_eq {s : State} (h : s.bitIndex = 7#3) : (pulseHalf s).2 = .byteComplete := if_pos h

theorem exec_tPulse (s : State) : exec .tPulse s = .next (afterAdvance (pulseHalf s)) := rfl

/-- Before the eighth bit, T.PULSE goes on to the next bit (R122). -/
theorem exec_tPulse_of_ne {s : State} (h : s.bitIndex ≠ 7#3) : exec .tPulse s =
    .next (s.observed { s with
      clk := some .high, halfPhase := .dataSetup, bitIndex := s.bitIndex + 1#3 }).emitWire := by
  rw [exec_tPulse, afterAdvance, pulseHalf_status_of_ne h, pulseHalf, if_neg h]

/-- At the eighth bit, T.PULSE goes back to the start state and the slot is emptied (R122, R144). -/
theorem exec_tPulse_of_eq {s : State} (h : s.bitIndex = 7#3) : exec .tPulse s =
    .next (s.observed { s with
      clk := some .high, halfPhase := .dataSetup, bitIndex := 0#3, ready := false }).emitWire := by
  rw [exec_tPulse, afterAdvance, pulseHalf_status_of_eq h, pulseHalf, if_pos h]
  rfl

/-- Settles O12: the row of T.SETUP, and the data-setup half with the selected bit and the wire entry written out. -/
theorem tSetupPutsTheBitOnTheLine : Obligations.TSetupPutsTheBitOnTheLine :=
  ⟨decodeState_row (r := ⟨0x328, 0x120, .tSetup⟩) (by decide), fun s => ⟨rfl, exec_tSetup s⟩⟩

/-- Settles O13: the row of T.PULSE, and the clock-pulse half before and at the eighth bit. -/
theorem tPulseLatchesAndAdvances : Obligations.TPulseLatchesAndAdvances :=
  ⟨decodeState_row (r := ⟨0x328, 0x128, .tPulse⟩) (by decide), fun _ =>
    ⟨fun h => ⟨pulseHalf_status_of_ne h, exec_tPulse_of_ne h⟩,
      fun h => ⟨pulseHalf_status_of_eq h, exec_tPulse_of_eq h⟩⟩⟩

end Sys2Proof.Machine

/-! PROOF. The Link State Machine (41_link_fsm.md): the seven micro-operations that send no bit, and the tick that selects one of
the nine. -/

namespace Sys2Proof.Machine

/-! ## What each micro-operation leaves -/

theorem exec_iClk (s : State) : exec .iClk s =
    .next (s.observed { s with clk := some s.cfg.clkIdleLevel, sub := .assertReset }) := rfl

theorem exec_iRst (s : State) : exec .iRst s =
    .next (s.observed { s with
      rst := some s.cfg.rstStep2Level, sub := .assertClockIdle, rstPending := false, phase := .transmitting }) := rfl

theorem exec_iSkip (s : State) : exec .iSkip s = .next { s with phase := .transmitting } := rfl

theorem exec_tWait (s : State) : exec .tWait s = .next s := rfl

/-- The request stays set (decision D7): R.HOLD consumes it, see `exec_rHold`. -/
theorem exec_tRstgo (s : State) : exec .tRstgo s = .next { s with phase := .resetting } := rfl

/-- The assert level of `RST` is the Low of R147. -/
theorem exec_rHold (s : State) : exec .rHold s =
    .next (s.observed { s with clk := some .high, rst := some .low, rstPending := true, resetReq := false }) := rfl

/-- The same assert cycle as `exec_rHold`, leaving phase Resetting in place of consuming a request (R148). -/
theorem exec_rExit (s : State) : exec .rExit s =
    .next (s.observed { s with clk := some .high, rst := some .low, rstPending := true, phase := .idle }) := rfl

/-! ## The micro-operation that R140's ordered tests select -/

section
variable {s : State}

theorem microOp_of_clockIdlePending (hp : s.phase = .idle) (hr : s.rstPending = true) (hs : s.sub = .assertClockIdle) :
    microOp s = .iClk := by simp [microOp, hp, hr, hs]

theorem microOp_of_resetPending (hp : s.phase = .idle) (hr : s.rstPending = true) (hs : s.sub = .assertReset) :
    microOp s = .iRst := by simp [microOp, hp, hr, hs]

theorem microOp_of_nothingPending (hp : s.phase = .idle) (hr : s.rstPending = false) : microOp s = .iSkip := by
  simp [microOp, hp, hr]

/-- A full slot is tested first: no condition on `resetReq` (R140). -/
theorem microOp_of_full_dataSetup (hp : s.phase = .transmitting) (hr : s.ready = true) (hh : s.halfPhase = .dataSetup) :
    microOp s = .tSetup := by simp [microOp, hp, hr, hh]

theorem microOp_of_full_clockPulse (hp : s.phase = .transmitting) (hr : s.ready = true) (hh : s.halfPhase = .clockPulse) :
    microOp s = .tPulse := by simp [microOp, hp, hr, hh]

theorem microOp_of_empty_requested (hp : s.phase = .transmitting) (hr : s.ready = false) (hq : s.resetReq = true) :
    microOp s = .tRstgo := by simp [microOp, hp, hr, hq]

theorem microOp_of_empty_notRequested (hp : s.phase = .transmitting) (hr : s.ready = false) (hq : s.resetReq = false) :
    microOp s = .tWait := by simp [microOp, hp, hr, hq]

theorem microOp_of_resetting_requested (hp : s.phase = .resetting) (hq : s.resetReq = true) : microOp s = .rHold := by
  simp [microOp, hp, hq]

theorem microOp_of_resetting_notRequested (hp : s.phase = .resetting) (hq : s.resetReq = false) : microOp s = .rExit := by
  simp [microOp, hp, hq]

end

/-- Settles O18: the state word decodes to `microOp`, the tick is that micro-operation and always completes, and the tests of
R140 pick it case by case. -/
theorem tickDispatchesInOrder : Obligations.TickDispatchesInOrder :=
  ⟨by decide, fun s => ⟨microOp s, afterTick s, decodeState_stateWord s, (exec_microOp s).symm, execTick_eq s,
    microOp_of_clockIdlePending, microOp_of_resetPending, microOp_of_nothingPending,
    microOp_of_full_dataSetup, microOp_of_full_clockPulse, microOp_of_empty_requested, microOp_of_empty_notRequested,
    microOp_of_resetting_requested, microOp_of_resetting_notRequested⟩⟩

/-! ## The micro-operations by their rows of R95 -/

/-- Settles O9: the row of I.CLK and the state it leaves. -/
theorem iClkDrivesTheClockIdle : Obligations.IClkDrivesTheClockIdle :=
  ⟨decodeState_row (r := ⟨0x3C0, 0x040, .iClk⟩) (by decide), exec_iClk⟩

/-- Settles O10: the row of I.RST and the state it leaves. -/
theorem iRstReleasesAndStartsTransmitting : Obligations.IRstReleasesAndStartsTransmitting :=
  ⟨decodeState_row (r := ⟨0x3C0, 0x0C0, .iRst⟩) (by decide), exec_iRst⟩

/-- Settles O11: the row of I.SKIP and the state it leaves. -/
theorem iSkipOnlyMovesToTransmitting : Obligations.ISkipOnlyMovesToTransmitting :=
  ⟨decodeState_row (r := ⟨0x340, 0x000, .iSkip⟩) (by decide), exec_iSkip⟩

/-- Settles O14: the row of T.WAIT and the unchanged state. -/
theorem tWaitChangesNothing : Obligations.TWaitChangesNothing :=
  ⟨decodeState_row (r := ⟨0x330, 0x100, .tWait⟩) (by decide), exec_tWait⟩

/-- Settles O15: the row of T.RSTGO and the state it leaves. -/
theorem tRstgoOnlyEntersResetting : Obligations.TRstgoOnlyEntersResetting :=
  ⟨decodeState_row (r := ⟨0x330, 0x110, .tRstgo⟩) (by decide), exec_tRstgo⟩

/-- Settles O16: the row of R.HOLD and the assert cycle that consumes the request. -/
theorem rHoldAssertsAndConsumes : Obligations.RHoldAssertsAndConsumes :=
  ⟨decodeState_row (r := ⟨0x310, 0x210, .rHold⟩) (by decide), exec_rHold⟩

/-- Settles O17: the row of R.EXIT and the assert cycle that returns to phase Idle. -/
theorem rExitAssertsAndReturnsToIdle : Obligations.RExitAssertsAndReturnsToIdle :=
  ⟨decodeState_row (r := ⟨0x310, 0x200, .rExit⟩) (by decide), exec_rExit⟩

end Sys2Proof.Machine

/-! PROOF. The host's three operations that submit no byte (42_host_handshake.md): POLL, WAIT and RSTREQ. -/

namespace Sys2Proof.Machine

theorem exec_poll (s : State) : exec .poll s = .next { s with lastPoll := some s.ready } := rfl

theorem exec_wait_of_empty {s : State} (hr : s.ready = false) : exec .wait s = .next s := if_neg (by simp [hr])

theorem exec_rstreq (s : State) : exec .rstreq s = .next { s with resetReq := true } := rfl

/-- A second request before the first is consumed has no effect (R176). -/
theorem exec_rstreq_of_requested {s : State} (hq : s.resetReq = true) : exec .rstreq s = .next s := by
  rw [exec_rstreq, ← hq]

/-- A tick leaves the host's program alone, whichever micro-operation it is. -/
@[simp] theorem afterTick_host (s : State) : (afterTick s).host = s.host := by
  obtain ⟨hp, hr, hs⟩ | ⟨hp, hr, hs⟩ | ⟨hp, hr⟩ | ⟨hp, hr, hh⟩ | ⟨hp, hr, hh, hi⟩ | ⟨hp, hr, hh, hi⟩ | ⟨hp, hr, hq⟩ |
    ⟨hp, hr, hq⟩ | ⟨hp, hq⟩ | ⟨hp, hq⟩ := tick_cases s
  · rw [afterTick_iClk hp hr hs, observed_host]
  · rw [afterTick_iRst hp hr hs, observed_host]
  · rw [afterTick_iSkip hp hr]
  · rw [afterTick_tSetup hp hr hh, emitWire_host, observed_host]
  · rw [afterTick_tPulse hp hr hh hi, emitWire_host, observed_host]
  · rw [afterTick_complete hp hr hh hi, State.clearReady, emitWire_host, observed_host]
  · rw [afterTick_tRstgo hp hr hq]
  · rw [afterTick_tWait hp hr hq]
  · rw [afterTick_rHold hp hq, observed_host]
  · rw [afterTick_rExit hp hq, observed_host]

/-- Settles O23: the word of POLL, and the one field it writes. -/
theorem pollReturnsReady : Obligations.PollReturnsReady := ⟨rfl, exec_poll⟩

/-- Settles O24: an empty slot lets the WAIT pass; on a full one the host is held, and the step is the tick that leaves it where
it is. -/
theorem waitPassesOnlyOnAnEmptySlot : Obligations.WaitPassesOnlyOnAnEmptySlot :=
  ⟨rfl, fun _ => exec_wait_of_empty, fun s _ hw =>
    ⟨fun hr => step_wait hr hw, fun hr =>
      have held : step s = .next (afterTick s) := step_held hr hw
      ⟨afterTick s, held, held.trans (execTick_eq s).symm, afterTick_host s⟩⟩⟩

/-- Settles O25: the word of RSTREQ, the flag it sets, and the request repeated. -/
theorem rstreqOnlySetsTheRequest : Obligations.RstreqOnlySetsTheRequest :=
  ⟨rfl, fun s => ⟨exec_rstreq s, exec_rstreq_of_requested⟩⟩

end Sys2Proof.Machine

/-! PROOF. The three formats of 30_encoding.md: decoding inverts encoding, and no bit of a word is dropped. -/

namespace Sys2Proof

/-! ## Format S -/

/-- A state word is its seven fields one after the other (R41). -/
theorem append_fields_of_stateWord : ∀ w : StateWord,
    w.extractLsb' 8 2 ++ BitVec.ofBool (w.getLsbD 7) ++ BitVec.ofBool (w.getLsbD 6) ++ BitVec.ofBool (w.getLsbD 5) ++
      BitVec.ofBool (w.getLsbD 4) ++ BitVec.ofBool (w.getLsbD 3) ++ w.extractLsb' 0 3 = w := by decide

/-- Settles O1: the 1024 words, one by one. -/
theorem stateWordsMatchExactlyOneRow : Obligations.StateWordsMatchExactlyOneRow := by
  unfold Obligations.StateWordsMatchExactlyOneRow
  decide

/-! ## Format H -/

/-- Under the `op` field of SUB, the nine low bits of a host word are the kind and the byte (R93). -/
theorem subWord_of_low : ∀ low : BitVec 9,
    0x1000 ||| low.setWidth 16 = subWord (low.getLsbD 8) (low.extractLsb' 0 8) := by decide

/-- A host word of SUB's row is the submission word of its own fields (R94). -/
theorem subWord_hostKind_hostVal {w : HostWord} (h : w &&& 0xFE00 = 0x1000) : subWord (hostKind w) (hostVal w) = w := by
  have low_bits : w &&& 0x01FF = (w.setWidth 9).setWidth 16 := by
    refine BitVec.eq_of_toNat_eq ?_
    have lt : w.toNat % 2 ^ 9 < 2 ^ 16 := Nat.lt_trans (Nat.mod_lt _ (by decide)) (by decide)
    rw [BitVec.toNat_setWidth, BitVec.toNat_setWidth, Nat.mod_eq_of_lt lt, BitVec.toNat_and]
    exact Nat.and_two_pow_sub_one_eq_mod w.toNat 9
  have split : w = 0x1000 ||| (w.setWidth 9).setWidth 16 := calc
    w = w &&& (0xFE00 ||| 0x01FF) := BitVec.and_allOnes.symm
    _ = 0x1000 ||| (w.setWidth 9).setWidth 16 := by rw [BitVec.and_or_distrib_left, h, low_bits]
  have kind : (w.setWidth 9).getLsbD 8 = hostKind w := by simp [hostKind]
  have val : (w.setWidth 9).extractLsb' 0 8 = hostVal w := by ext i hi; simp [hostVal]; omega
  rw [subWord_of_low, kind, val] at split
  exact split.symm

theorem decodeHost_of_sub {w : HostWord} (h : w &&& 0xFE00 = 0x1000) :
    decodeHost w = some (Instr.sub (hostKind w) (hostVal w)).canonical := by
  have spelled := Machine.decodeHost_subWord (hostKind w) (hostVal w)
  rw [subWord_hostKind_hostVal h] at spelled
  rw [spelled]
  cases hostKind w <;> rfl

/-- A host word that matches no row of R94 decodes to nothing (R99). -/
theorem decodeHost_reserved {w : HostWord} (h0 : w &&& 0xFFFF ≠ 0x0000) (h1 : w &&& 0xFE00 ≠ 0x1000)
    (h2 : w &&& 0xFFFF ≠ 0x2000) (h3 : w &&& 0xFFFF ≠ 0x3000) (h4 : w &&& 0xFFFF ≠ 0x4000) : decodeHost w = none := by
  rw [decodeHost, if_neg h0, if_neg h1, if_neg h2, if_neg h3, if_neg h4]

theorem encode_canonical (i : Instr) : encode i.canonical = encode i := by
  cases i with
  | sub c v => cases c <;> rfl
  | _ => rfl

/-- Settles O6: outside SUB's row the word is written out in its row; in SUB's row it is put together again from its fields. -/
theorem encodeOfDecodeIsTheHostWord : Obligations.EncodeOfDecodeIsTheHostWord := by
  intro w i h
  by_cases hs : w &&& 0xFE00 = 0x1000
  · rw [decodeHost_of_sub hs] at h
    rw [← Option.some.inj h, encode_canonical]
    exact congrArg CodeWord.host (subWord_hostKind_hostVal hs)
  · have mask : w &&& 0xFFFF = w := BitVec.and_allOnes
    have row {v : HostWord} {j : Instr} (hv : encode j = .host v) (hw : w = v) (hj : some j = some i) : encode i = .host w := by
      rw [← Option.some.inj hj, hw, hv]
    simp only [decodeHost, hs, if_false, mask] at h
    repeat' split at h
    · next hw => exact row rfl hw h
    · next hw => exact row rfl hw h
    · next hw => exact row rfl hw h
    · next hw => exact row rfl hw h
    · cases h

/-! ## Format P -/

theorem decodePayload_pageSelectByte : ∀ p, p ≤ 15 → decodePayload (pageSelectByte p) = .cmdPage p := by decide

/-! ## The round trip -/

theorem decode_host {w : HostWord} {i : Instr} : decode (.host w) = .ok i ↔ decodeHost w = some i := by
  simp only [decode]
  cases decodeHost w <;> simp

theorem decode_encode_sub (c : Bool) (v : Byte) : decode (encode (.sub c v)) = .ok (Instr.sub c v).canonical := by
  rw [encode, decode_host, Machine.decodeHost_subWord]
  cases c <;> rfl

/-- Settles O4: an instruction without operands has one word; the submissions go by their word, and a page select by its index,
which well-formedness bounds. -/
theorem decodeOfEncodeIsTheInstruction : Obligations.DecodeOfEncodeIsTheInstruction := by
  intro i hwf
  cases i with
  | sub c v => exact decode_encode_sub c v
  | subC v => exact decode_encode_sub true v
  | subD v => exact decode_encode_sub false v
  | cmdPage p => exact congrArg Except.ok (decodePayload_pageSelectByte p (of_decide_eq_true hwf))
  | _ => rfl

/-- Settles O8: each word is looked up in its table. -/
theorem sampleWordsDecode : Obligations.SampleWordsDecode :=
  ⟨rfl, rfl, rfl, rfl, rfl, rfl, rfl, rfl, rfl, rfl⟩

/-- Settles O5: only SUB has a second spelling, with the kind in its name. -/
theorem canonicalSpellingRunsAlike : Obligations.CanonicalSpellingRunsAlike := by
  intro i s
  cases i with
  | sub c v => cases c <;> rfl
  | _ => rfl

end Sys2Proof

/-! PROOF. A step at each kind of host line, and a tick from the state word that selects it. -/

namespace Sys2Proof.Machine

/-! ## The state a state word packs -/

@[simp] theorem Sub.code_ofCode (b : Bool) : (Sub.ofCode b).code = b := by cases b <;> rfl

@[simp] theorem HalfPhase.code_ofCode (b : Bool) : (HalfPhase.ofCode b).code = b := by cases b <;> rfl

theorem Phase.ofCode_eq_some : ∀ {c : BitVec 2}, c ≠ 0b11#2 → ∃ p, Phase.ofCode c = some p ∧ p.code = c := by decide

/-- A word that decodes packs the fields it sets (R41). -/
theorem stateWord_withStateWord (s : State) {w : StateWord} {i : Instr} (h : decodeState w = some i) :
    (s.withStateWord w).stateWord = w := by
  have legal : w.extractLsb' 8 2 ≠ 0b11#2 := fun hc => by
    rw [(stateWordsMatchExactlyOneRow w).2.mpr hc] at h
    cases h
  obtain ⟨p, hp, hcode⟩ := Phase.ofCode_eq_some legal
  simp only [State.withStateWord, hp, State.stateWord, Sub.code_ofCode, HalfPhase.code_ofCode, hcode]
  exact append_fields_of_stateWord w

/-- A tick is the micro-operation that the state word decodes to (R95). -/
theorem exec_of_decodeState {s : State} {i : Instr} (h : decodeState s.stateWord = some i) :
    exec i s = .next (afterTick s) := by
  rw [decodeState_stateWord] at h
  rw [← Option.some.inj h, exec_microOp, execTick_eq]

theorem exec_tick (s : State) : exec .tick s = .next (afterTick s) := execTick_eq s

/-- Settles O3: the word is put together again from the fields, and with no host line the step is its micro-operation. -/
theorem stateWordUnpacksAndRuns : Obligations.StateWordUnpacksAndRuns := by
  intro s w i h
  have unpacked := stateWord_withStateWord s h
  have decoded : decodeState { s.withStateWord w with host := [] }.stateWord = some i :=
    (congrArg decodeState unpacked).trans h
  exact ⟨unpacked, (step_idle_host rfl).trans (exec_of_decodeState decoded).symm⟩

/-- Settles O28: with no line, or held at a WAIT, the step is a tick. -/
theorem stepRunsTheSelectedMicroOperation : Obligations.StepRunsTheSelectedMicroOperation := by
  rintro s i (hh | ⟨hr, rest, hh⟩) hd
  · exact (step_idle_host hh).trans (exec_of_decodeState hd).symm
  · exact (step_held hr hh).trans (exec_of_decodeState hd).symm

/-! ## A step at a line -/

/-- What a fetched instruction or line answers. -/
def Fetched.answer : Fetched → Host.Outcome State Fault Refusal
  | .run i s => exec i s
  | .done o => o

theorem step_eq_answer (s : State) : step s = (fetch s).answer := by
  unfold step
  cases fetch s <;> rfl

theorem step_of_notHeld {s : State} {l : HostLine} {rest : List HostLine} (hl : s.host = l :: rest)
    (hw : s.heldAt l = false) : step s = (fetchLine { s with host := rest } l).answer := by
  simp only [step_eq_answer, fetch, hl, hw, Bool.false_eq_true, if_false]

/-- The host is held at no line but a WAIT (R174). -/
theorem heldAt_of_ne_wait (s : State) {l : HostLine} (h : l ≠ waitLine) : s.heldAt l = false := by
  simp [State.heldAt, h]

theorem step_of_ne_wait {s : State} {l : HostLine} {rest : List HostLine} (hl : s.host = l :: rest) (h : l ≠ waitLine) :
    step s = (fetchLine { s with host := rest } l).answer :=
  step_of_notHeld hl (heldAt_of_ne_wait s h)

/-- Settles O7: a reserved word is not a WAIT, so the host is not held at it, and it decodes to nothing. -/
theorem reservedHostWordsAreRefused : Obligations.ReservedHostWordsAreRefused := by
  intro s w rest hl h0 h1 h2 h3 h4
  have not_wait : HostLine.word w ≠ waitLine := by
    rintro hw
    exact h3 (by rw [HostLine.word.inj hw]; rfl)
  rw [step_of_ne_wait hl not_wait]
  simp only [fetchLine, decodeHost_reserved h0 h1 h2 h3 h4]
  rfl

/-- Settles O29: the word decodes, and the host is not held at it. -/
theorem stepRunsTheDecodedHostWord : Obligations.StepRunsTheDecodedHostWord := by
  intro s w rest i hl hw hd
  refine step_word ?_ hl (decode_host.mp hd)
  cases hr : s.ready
  · exact .inl rfl
  · exact .inr fun h => hw ⟨hr, h⟩

/-- Settles O30: the step is the byte's instruction, and every byte's instruction is its submission as a command. -/
theorem stepRunsTheDecodedCommandByte : Obligations.StepRunsTheDecodedCommandByte := by
  intro s b rest i hl hd
  have run : step s = exec (decodePayload b) { s with host := rest } := step_of_ne_wait hl (by simp [waitLine])
  cases hd
  exact ⟨run, run.trans (exec_decodePayload b _)⟩

/-! ## The register binding -/

theorem step_bus {s : State} {a : BusAccess} {rest : List HostLine} (hl : s.host = .bus a :: rest) :
    step s = (fetchBus a { s with host := rest }).answer :=
  step_of_ne_wait hl (by simp [waitLine])

theorem effect_write_outside {off n : Nat} {w : BitVec 32} (h : n ≠ 4 ∨ (off ≠ 0x0 ∧ off ≠ 0x4 ∧ off ≠ 0x8)) :
    (BusAccess.write off n w).effect = .outside := by
  rcases h with hn | ⟨h0, h4, h8⟩
  · simp only [BusAccess.effect, hn, if_false]
  · simp only [BusAccess.effect, h0, h4, h8, if_false, ite_self]

theorem effect_read_outside {off n : Nat} (h : n ≠ 4 ∨ (off ≠ 0x0 ∧ off ≠ 0x4 ∧ off ≠ 0x8)) :
    (BusAccess.read off n).effect = .outside := by
  rcases h with hn | ⟨h0, h4, h8⟩
  · simp only [BusAccess.effect, hn, if_false]
  · simp only [BusAccess.effect, h0, h4, h8, if_false, ite_self]

/-- Settles O31: the rows of the binding one by one, and every access that has none. -/
theorem busAccessesFollowTheBinding : Obligations.BusAccessesFollowTheBinding := by
  intro s a rest hl
  have run := step_bus hl
  refine ⟨?txdata, ?status, ?ctrl, ?statusWrite, ?zeroRead, ?outside⟩
  case txdata => rintro w rfl; exact run
  case status =>
    rintro rfl
    rw [run]
    show Host.Outcome.next _ = _
    cases s.ready <;> rfl
  case ctrl =>
    rintro w rfl
    rw [run]
    simp only [fetchBus, BusAccess.effect]
    cases w.getLsbD 0
    · simp [Fetched.answer]
    · simp [Fetched.answer, exec_rstreq]
  case statusWrite => rintro w rfl; exact run
  case zeroRead => rintro (rfl | rfl) <;> exact run
  case outside =>
    rintro off n w (rfl | rfl) ho
    · rw [run, fetchBus, effect_write_outside ho]; rfl
    · rw [run, fetchBus, effect_read_outside ho]; rfl

end Sys2Proof.Machine

/-! PROOF. The host operations (42_host_handshake.md): which instructions are submissions, what a host move leaves alone, and SUB
by its micro-steps. -/

namespace Sys2Proof.Machine

/-! ## The instructions that submit a byte -/

/-- The kind and byte an instruction submits, if it submits one (R170; for the command bytes log entry 8). -/
def submission : Instr → Option (Bool × Byte)
  | .sub c v => some (c, v)
  | .subC v => some (true, v)
  | .subD v => some (false, v)
  | .cmdSwreset => some (true, 0xE2)
  | .cmdA2 => some (true, 0xA2)
  | .cmdA0 => some (true, 0xA0)
  | .cmdC8 => some (true, 0xC8)
  | .cmd24 => some (true, 0x24)
  | .cmdContrast => some (true, 0x81)
  | .cmd2F => some (true, 0x2F)
  | .cmd40 => some (true, 0x40)
  | .cmdAF => some (true, 0xAF)
  | .cmdPage p => some (true, pageSelectByte p)
  | .cmdColhi0 => some (true, 0x10)
  | .cmdCollo0 => some (true, 0x00)
  | .cmdRelease => some (true, 0xEE)
  | _ => none

/-- An instruction with a submission is the one operation SUB. -/
theorem exec_of_submission {i : Instr} {c : Bool} {v : Byte} (h : submission i = some (c, v)) (s : State) :
    exec i s = submit c v s := by
  cases i <;> cases h <;> rfl

theorem exec_submission_empty {i : Instr} {c : Bool} {v : Byte} {s : State} (h : submission i = some (c, v))
    (hr : s.ready = false) : exec i s = .next { s with
      dc := some (s.cfg.dcLevel c), value := v, isCommand := c, ready := true, subDone := [] } :=
  (exec_of_submission h s).trans (submit_empty c v hr)

/-- Settles O20: the words of SUB's row, and the one operation behind its three spellings. -/
theorem subPublishesTheByte : Obligations.SubPublishesTheByte :=
  ⟨fun _ => decodeHost_of_sub, fun _ c v hr => ⟨exec_submission_empty (i := .sub c v) rfl hr, rfl, rfl⟩⟩

/-- Settles O21: each instruction of the list is a submission, and a submission on a full slot is the violation (R172). -/
theorem subOnFullSlotIsAViolation : Obligations.SubOnFullSlotIsAViolation := by
  intro s c v p hr i hi
  have submits : ∃ m, submission i = some m := by
    revert i
    simp [submission]
  obtain ⟨⟨c, v⟩, hm⟩ := submits
  exact (exec_of_submission hm s).trans (submit_full c v hr)

theorem pageSelectByte_eq_append : ∀ p : Nat, p ≤ 15 → (0xB0 : Byte) ||| BitVec.ofNat 8 p = 0b1011#4 ++ BitVec.ofNat 4 p := by
  decide

/-- Settles O22: each row of the list submits its own byte as a command. -/
theorem commandBytesAreSubmittedAsCommands : Obligations.CommandBytesAreSubmittedAsCommands := by
  intro s hr
  refine ⟨fun m hm => ?_, fun p => ⟨exec_submission_empty (i := .cmdPage p) rfl hr, pageSelectByte_eq_append p⟩⟩
  have submits : submission m.1 = some (true, m.2) := by revert m; decide
  exact exec_submission_empty submits hr

/-! ## What a host move leaves alone -/

/-- What no move of the HOST agent writes (R181, R237): the TICK agent's position, the lines but `DC`, the logs and the parameters;
and what it writes only on an empty slot, or only sets. -/
structure HostKeeps (s t : State) : Prop where
  cfg : t.cfg = s.cfg
  phase : t.phase = s.phase
  sub : t.sub = s.sub
  rstPending : t.rstPending = s.rstPending
  bitIndex : t.bitIndex = s.bitIndex
  halfPhase : t.halfPhase = s.halfPhase
  clk : t.clk = s.clk
  dat : t.dat = s.dat
  rst : t.rst = s.rst
  cs : t.cs = s.cs
  regen : t.regen = s.regen
  wire : t.wire = s.wire
  rx : t.rx = s.rx
  rxSamples : t.rxSamples = s.rxSamples
  /-- A request is only set (R25). -/
  resetReq : s.resetReq = true → t.resetReq = true
  /-- A full slot is left alone, and `DC` with it (R24). -/
  slot : s.ready = true → t.ready = true ∧ t.value = s.value ∧ t.isCommand = s.isCommand ∧ t.dc = s.dc

/-- The host reads, or changes its own side of the state. -/
theorem HostKeeps.side (s : State) (h : List HostLine) (p : Option Bool) (b : Option (BitVec 32)) (m : Memory) :
    HostKeeps s { s with host := h, lastPoll := p, busData := b, buf := m } := by
  constructor <;> simp

theorem HostKeeps.request (s : State) (h : List HostLine) : HostKeeps s { s with host := h, resetReq := true } := by
  constructor <;> simp

theorem HostKeeps.submission {s : State} (h : List HostLine) (c : Bool) (v : Byte) (hr : s.ready = false) :
    HostKeeps s { s with
      host := h, dc := some (s.cfg.dcLevel c), value := v, isCommand := c, ready := true, subDone := [] } := by
  constructor <;> simp [hr]

theorem HostKeeps.subStep {s : State} (h : List HostLine) (m : SubStep) (hr : s.ready = false) :
    HostKeeps s (State.subStep { s with host := h } m) := by
  cases m <;> constructor <;> simp [State.subStep, hr]

/-- A step is a tick, or a move of the host that leaves the TICK agent's side alone. -/
theorem step_cases {s t : State} (h : step s = .next t) :
    (stepTicks s = true ∧ ∃ l, t = afterTick { s with host := l }) ∨ (stepTicks s = false ∧ HostKeeps s t) := by
  cases step_move h with
  | tick l ht => exact .inl ⟨ht, l, rfl⟩
  | side l p b m hn _ => exact .inr ⟨hn, .side s l p b m⟩
  | request l hn => exact .inr ⟨hn, .request s l⟩
  | submit l c v hn _ hr => exact .inr ⟨hn, .submission l c v hr⟩
  | subStep l m hn _ hr _ => exact .inr ⟨hn, .subStep l m hr⟩

theorem hostKeeps_of_submit {s t : State} {c : Bool} {v : Byte} (h : submit c v s = .next t) :
    HostKeeps s t ∧ t.buf = s.buf := by
  obtain ⟨hr, rfl⟩ := submit_next h
  exact ⟨.submission s.host c v hr, rfl⟩

theorem hostKeeps_of_poll {s t : State} (h : exec .poll s = .next t) : HostKeeps s t ∧ t.buf = s.buf := by
  cases h
  exact ⟨.side s s.host (some s.ready) s.busData s.buf, rfl⟩

theorem hostKeeps_of_wait {s t : State} (h : exec .wait s = .next t) : HostKeeps s t ∧ t.buf = s.buf := by
  simp only [exec, execWait] at h
  split at h <;> cases h
  · exact ⟨.side s _ s.lastPoll s.busData s.buf, rfl⟩
  · exact ⟨.side s s.host s.lastPoll s.busData s.buf, rfl⟩

theorem hostKeeps_of_rstreq {s t : State} (h : exec .rstreq s = .next t) : HostKeeps s t ∧ t.buf = s.buf := by
  cases h
  exact ⟨.request s s.host, rfl⟩

/-- Settles O26: the list is POLL, WAIT, RSTREQ and the submissions. -/
theorem hostOperationsLeaveTheTickAgentsState : Obligations.HostOperationsLeaveTheTickAgentsState := by
  intro s t c v p i hi
  have kinds : i = .poll ∨ i = .wait ∨ i = .rstreq ∨ ∃ m, submission i = some m := by
    revert i
    simp [submission]
  intro ht
  obtain ⟨kept, buf⟩ : HostKeeps s t ∧ t.buf = s.buf := by
    rcases kinds with rfl | rfl | rfl | ⟨⟨c, v⟩, hm⟩
    · exact hostKeeps_of_poll ht
    · exact hostKeeps_of_wait ht
    · exact hostKeeps_of_rstreq ht
    · exact hostKeeps_of_submit ((exec_of_submission hm s).symm.trans ht)
  exact ⟨kept.phase, kept.sub, kept.rstPending, kept.bitIndex, kept.halfPhase, kept.clk, kept.dat, kept.rst, kept.cs, kept.regen,
    kept.wire, kept.rx, kept.rxSamples, buf, kept.cfg, fun hr => (kept.slot hr).1, kept.resetReq⟩

end Sys2Proof.Machine

/-! PROOF. One tick: its ten cases, the fields it does not write, and the link invariant of R152. -/

namespace Sys2Proof.Machine

/-! ## The cases of a tick -/

/-- What one tick can do to the state: the micro-operation that R140's tests select, and what it writes (R151). -/
inductive Ticked (s : State) : State → Prop where
  | iClk (hp : s.phase = .idle) (hr : s.rstPending = true) (hs : s.sub = .assertClockIdle) :
      Ticked s (s.observed { s with clk := some s.cfg.clkIdleLevel, sub := .assertReset })
  | iRst (hp : s.phase = .idle) (hr : s.rstPending = true) (hs : s.sub = .assertReset) :
      Ticked s (s.observed { s with
        rstPending := false, rst := some s.cfg.rstStep2Level, sub := .assertClockIdle, phase := .transmitting })
  | iSkip (hp : s.phase = .idle) (hr : s.rstPending = false) : Ticked s { s with phase := .transmitting }
  | tSetup (hp : s.phase = .transmitting) (hr : s.ready = true) (hh : s.halfPhase = .dataSetup) :
      Ticked s (s.observed { s with
        dat := some (Level.ofBit (selectedBit s.value s.bitIndex)), clk := some .low, halfPhase := .clockPulse }).emitWire
  | tPulse (hp : s.phase = .transmitting) (hr : s.ready = true) (hh : s.halfPhase = .clockPulse) (hi : s.bitIndex ≠ 7#3) :
      Ticked s (s.observed { s with clk := some .high, halfPhase := .dataSetup, bitIndex := s.bitIndex + 1#3 }).emitWire
  | complete (hp : s.phase = .transmitting) (hr : s.ready = true) (hh : s.halfPhase = .clockPulse) (hi : s.bitIndex = 7#3) :
      Ticked s (s.observed { s with clk := some .high, halfPhase := .dataSetup, bitIndex := 0#3 }).emitWire.clearReady
  | tRstgo (hp : s.phase = .transmitting) (hr : s.ready = false) (hq : s.resetReq = true) :
      Ticked s { s with phase := .resetting }
  | tWait (hp : s.phase = .transmitting) (hr : s.ready = false) (hq : s.resetReq = false) : Ticked s s
  | rHold (hp : s.phase = .resetting) (hq : s.resetReq = true) :
      Ticked s (s.observed { s with clk := some .high, rst := some .low, rstPending := true, resetReq := false })
  | rExit (hp : s.phase = .resetting) (hq : s.resetReq = false) :
      Ticked s (s.observed { s with clk := some .high, rst := some .low, rstPending := true, phase := .idle })

theorem ticked (s : State) : Ticked s (afterTick s) := by
  obtain ⟨hp, hr, hs⟩ | ⟨hp, hr, hs⟩ | ⟨hp, hr⟩ | ⟨hp, hr, hh⟩ | ⟨hp, hr, hh, hi⟩ | ⟨hp, hr, hh, hi⟩ | ⟨hp, hr, hq⟩ |
    ⟨hp, hr, hq⟩ | ⟨hp, hq⟩ | ⟨hp, hq⟩ := tick_cases s
  · rw [afterTick_iClk hp hr hs]; exact .iClk hp hr hs
  · rw [afterTick_iRst hp hr hs]; exact .iRst hp hr hs
  · rw [afterTick_iSkip hp hr]; exact .iSkip hp hr
  · rw [afterTick_tSetup hp hr hh]; exact .tSetup hp hr hh
  · rw [afterTick_tPulse hp hr hh hi]; exact .tPulse hp hr hh hi
  · rw [afterTick_complete hp hr hh hi]; exact .complete hp hr hh hi
  · rw [afterTick_tRstgo hp hr hq]; exact .tRstgo hp hr hq
  · rw [afterTick_tWait hp hr hq]; exact .tWait hp hr hq
  · rw [afterTick_rHold hp hq]; exact .rHold hp hq
  · rw [afterTick_rExit hp hq]; exact .rExit hp hq

/-! ## What a tick leaves alone -/

/-- The fields a tick may write; every other one stays (R151, R237). -/
theorem afterTick_frame (s : State) : afterTick s = { s with
    ready := (afterTick s).ready, resetReq := (afterTick s).resetReq, phase := (afterTick s).phase, sub := (afterTick s).sub
    rstPending := (afterTick s).rstPending, bitIndex := (afterTick s).bitIndex, halfPhase := (afterTick s).halfPhase
    clk := (afterTick s).clk, dat := (afterTick s).dat, rst := (afterTick s).rst, wire := (afterTick s).wire
    rxSamples := (afterTick s).rxSamples, rx := (afterTick s).rx } := by
  have h := ticked s
  generalize afterTick s = t at h
  cases h <;> rfl

@[simp] theorem afterTick_cfg (s : State) : (afterTick s).cfg = s.cfg := by rw [afterTick_frame]
@[simp] theorem afterTick_value (s : State) : (afterTick s).value = s.value := by rw [afterTick_frame]
@[simp] theorem afterTick_isCommand (s : State) : (afterTick s).isCommand = s.isCommand := by rw [afterTick_frame]
@[simp] theorem afterTick_dc (s : State) : (afterTick s).dc = s.dc := by rw [afterTick_frame]
@[simp] theorem afterTick_cs (s : State) : (afterTick s).cs = s.cs := by rw [afterTick_frame]
@[simp] theorem afterTick_regen (s : State) : (afterTick s).regen = s.regen := by rw [afterTick_frame]
@[simp] theorem afterTick_subDone (s : State) : (afterTick s).subDone = s.subDone := by rw [afterTick_frame]
@[simp] theorem afterTick_lastPoll (s : State) : (afterTick s).lastPoll = s.lastPoll := by rw [afterTick_frame]
@[simp] theorem afterTick_busData (s : State) : (afterTick s).busData = s.busData := by rw [afterTick_frame]
@[simp] theorem afterTick_buf (s : State) : (afterTick s).buf = s.buf := by rw [afterTick_frame]

/-- The TICK agent never fills the slot (R23). -/
theorem Ticked.empty {s t : State} (h : Ticked s t) (hr : s.ready = false) : t.ready = false := by
  cases h <;> simp [hr]

theorem Ticked.wasFull {s t : State} (h : Ticked s t) (ht : t.ready = true) : s.ready = true := by
  cases hs : s.ready
  · exact absurd (ht.symm.trans (h.empty hs)) (by decide)
  · rfl

/-- The TICK agent never requests a reset (R25). -/
theorem Ticked.notRequested {s t : State} (h : Ticked s t) (hq : s.resetReq = false) : t.resetReq = false := by
  cases h <;> simp [hq]

theorem Ticked.wasRequested {s t : State} (h : Ticked s t) (ht : t.resetReq = true) : s.resetReq = true := by
  cases hs : s.resetReq
  · exact absurd (ht.symm.trans (h.notRequested hs)) (by decide)
  · rfl

/-! ## The link invariant -/

/-- Each item of R152 is read off the fields that the micro-operation writes, and off the items before the tick. -/
theorem Ticked.linkInv {s t : State} (ht : Ticked s t) (h : LinkInv s) : LinkInv t := by
  obtain ⟨levels, subStart, emptySlot, otherPhase, idlePending, released, resetting, clkUndriven, rstUndriven, clkHigh, clkLow,
    idleNotReleased⟩ := h
  cases ht with
  | iSkip hp hr => rw [idlePending hp] at hr; cases hr
  | _ => constructor <;> simp_all [DefaultLevels]

/-- A move of the host keeps the items: what it writes of their fields it writes on an empty slot, or only sets. -/
theorem HostKeeps.linkInv {s t : State} (k : HostKeeps s t) (h : LinkInv s) : LinkInv t where
  levels := by rw [k.cfg]; exact h.levels
  subStart := by rw [k.phase, k.sub]; exact h.subStart
  emptySlotAtStart ht := by
    rw [k.bitIndex, k.halfPhase]
    refine h.emptySlotAtStart (Bool.eq_false_iff.mpr fun hs => ?_)
    rw [(k.slot hs).1] at ht
    cases ht
  otherPhaseAtStart := by rw [k.phase, k.bitIndex, k.halfPhase]; exact h.otherPhaseAtStart
  idlePending := by rw [k.phase, k.rstPending]; exact h.idlePending
  transmittingReleased := by rw [k.phase, k.rstPending, k.rst]; exact h.transmittingReleased
  resettingForm := by
    rw [k.phase, k.rstPending, k.rst]
    exact fun hp => (h.resettingForm hp).imp_left fun ⟨pending, request, released⟩ => ⟨pending, k.resetReq request, released⟩
  clkUndriven := by rw [k.clk, k.phase, k.sub, k.rst]; exact h.clkUndriven
  rstUndriven := by rw [k.rst, k.phase]; exact h.rstUndriven
  clkHigh := by rw [k.clk, k.halfPhase]; exact h.clkHigh
  clkLow := by rw [k.clk, k.halfPhase]; exact h.clkLow
  idleNotReleased := by rw [k.phase, k.rst]; exact h.idleNotReleased

/-- The items say nothing of what the host has still to do. -/
theorem LinkInv.withHost {s : State} (h : LinkInv s) (l : List HostLine) : LinkInv { s with host := l } :=
  (HostKeeps.side s l s.lastPoll s.busData s.buf).linkInv h

/-- Settles O35: a step is a tick or a move of the host, and each keeps the items. -/
theorem linkInvariantIsKept : Obligations.LinkInvariantIsKept := by
  intro s t hs h
  obtain ⟨-, l, rfl⟩ | ⟨-, k⟩ := step_cases h
  · exact (ticked _).linkInv (hs.withHost l)
  · exact k.linkInv hs

end Sys2Proof.Machine

/-! PROOF. The receiver of R36 kept in step with the byte: what it samples, and the byte it has at the end. -/

namespace Sys2Proof.Machine

/-! ## No clock edge, nothing received -/

theorem nextSamples_of_noRise {a b : State} (h : risingEdge a b = false) :
    nextSamples a b = if b.rst = some .low then [] else a.rxSamples := by
  simp [nextSamples, h, Config.rstAssertLevel]

theorem nextRx_of_noRise {a b : State} (h : risingEdge a b = false) : nextRx a b = a.rx := by
  simp [nextRx, h]

/-- In the setup half `CLK` is not Low, so it cannot rise (R152 item 7). -/
theorem LinkInv.noRise {s : State} (h : LinkInv s) (hh : s.halfPhase = .dataSetup) (t : State) : risingEdge s t = false := by
  have : s.clk ≠ some .low := fun hc => by rw [h.clkLow.mp hc] at hh; cases hh
  simp [risingEdge, this]

/-- Without an edge, and with no sample to lose to a reset, the receiver stays as it is. -/
theorem observed_of_noRise {a b : State} (h : risingEdge a b = false) (hs : a.rxSamples = [] ∨ b.rst ≠ some .low) :
    a.observed b = { b with rxSamples := a.rxSamples, rx := a.rx } := by
  rw [State.observed, nextSamples_of_noRise h, nextRx_of_noRise h]
  rcases hs with hs | hs <;> simp [hs]

/-! ## The samples of a byte -/

/-- Settles O19: the 256 bytes, one by one. -/
theorem receiverReassemblesTheByte : Obligations.ReceiverReassemblesTheByte := by
  unfold Obligations.ReceiverReassemblesTheByte
  decide

theorem bitIndex_toNat_succ : ∀ {i : BitVec 3}, i ≠ 7#3 → (i + 1#3).toNat = i.toNat + 1 := by decide

@[simp] theorem sentBits_length (s : State) : (sentBits s).length = s.bitIndex.toNat := by simp [sentBits]

theorem sentBits_of_start {s : State} (h : s.bitIndex = 0#3) : sentBits s = [] := by simp [sentBits, h]

/-- The bit being sent, after those sent. -/
theorem sentBits_append_selectedBit (s : State) :
    sentBits s ++ [some (Level.ofBit (selectedBit s.value s.bitIndex))] =
      (List.range (s.bitIndex.toNat + 1)).map fun i => some (Level.ofBit (s.value.getLsbD (7 - i))) := by
  simp [sentBits, selectedBit, List.range_succ]

/-- At the eighth bit the samples are the byte (R61, R124). -/
theorem byteOfSamples_sentBits {s : State} (h : s.bitIndex = 7#3) :
    byteOfSamples (sentBits s ++ [some (Level.ofBit (selectedBit s.value s.bitIndex))]) = some s.value := by
  rw [sentBits_append_selectedBit, h]
  exact receiverReassemblesTheByte s.value

/-! ## A tick under the invariants -/

section
variable {s : State}

theorem ReceiverInv.noSamples (h : ReceiverInv s) (hi : s.bitIndex = 0#3) : s.rxSamples = [] :=
  h.samples.trans (sentBits_of_start hi)

/-- Outside phase Transmitting the receiver only waits. -/
theorem observed_of_otherPhase (hl : LinkInv s) (hr : ReceiverInv s) (hp : s.phase ≠ .transmitting) (t : State) :
    s.observed t = { t with rxSamples := s.rxSamples, rx := s.rx } :=
  have ⟨hi, hh⟩ := hl.otherPhaseAtStart hp
  observed_of_noRise (hl.noRise hh t) (.inl (hr.noSamples hi))

/-- In the pulse half of phase Transmitting `CLK` rises and `RST` is not Low. -/
theorem risingEdge_of_pulse (hl : LinkInv s) (hh : s.halfPhase = .clockPulse) {t : State} (ht : t.clk = some .high) :
    risingEdge s t = true := by
  simp [risingEdge, hl.clkLow.mpr hh, ht]

/-- A pulse before the eighth adds the data line's level to the samples. -/
theorem observed_pulse (hl : LinkInv s) (hr : ReceiverInv s) (hp : s.phase = .transmitting) (hh : s.halfPhase = .clockPulse)
    (hi : s.bitIndex ≠ 7#3) {t : State} (ht : t.clk = some .high) (hrst : t.rst = s.rst) :
    s.observed t = { t with rxSamples := s.rxSamples ++ [t.dat], rx := s.rx } := by
  have rise := risingEdge_of_pulse hl hh ht
  have out_of_reset : t.rst ≠ some .low := by rw [hrst, (hl.transmittingReleased hp).2]; decide
  have short : s.rxSamples.length + 1 ≠ 8 := by
    rw [hr.samples, sentBits_length]
    intro h
    exact hi (BitVec.eq_of_toNat_eq (by simpa using h))
  simp [State.observed, nextSamples, nextRx, rise, out_of_reset, short, Config.rstAssertLevel, Config.bitsPerByte]

/-- The eighth pulse completes the byte. -/
theorem observed_complete (hl : LinkInv s) (hr : ReceiverInv s) (hp : s.phase = .transmitting) (hh : s.halfPhase = .clockPulse)
    (hi : s.bitIndex = 7#3) {t : State} (ht : t.clk = some .high) (hrst : t.rst = s.rst) (hdat : t.dat = s.dat) :
    s.observed t = { t with rxSamples := [], rx := s.rx ++ [(some s.value, t.dc)] } := by
  have rise := risingEdge_of_pulse hl hh ht
  have out_of_reset : t.rst ≠ some .low := by rw [hrst, (hl.transmittingReleased hp).2]; decide
  have eighth : s.rxSamples.length + 1 = 8 := by rw [hr.samples, sentBits_length, hi]; rfl
  have byte : byteOfSamples (s.rxSamples ++ [t.dat]) = some s.value := by
    rw [hr.samples, hdat, hr.dataHeld hh, byteOfSamples_sentBits hi]
  simp [State.observed, nextSamples, nextRx, rise, out_of_reset, eighth, byte, Config.rstAssertLevel, Config.bitsPerByte]

/-- T.SETUP under the invariants. -/
theorem afterTick_setup (hl : LinkInv s) (hp : s.phase = .transmitting) (hready : s.ready = true) (hh : s.halfPhase = .dataSetup) :
    afterTick s = { s with
      dat := some (Level.ofBit (selectedBit s.value s.bitIndex)), clk := some .low, halfPhase := .clockPulse
      wire := s.wire ++ [(some (Level.ofBit (selectedBit s.value s.bitIndex)), some .low)] } := by
  rw [afterTick_tSetup hp hready hh, observed_of_noRise (hl.noRise hh _) (.inr (by simp [(hl.transmittingReleased hp).2]))]
  rfl

/-- T.PULSE under the invariants, before the eighth bit. -/
theorem afterTick_pulse (hl : LinkInv s) (hr : ReceiverInv s) (hp : s.phase = .transmitting) (hready : s.ready = true)
    (hh : s.halfPhase = .clockPulse) (hi : s.bitIndex ≠ 7#3) : afterTick s = { s with
      clk := some .high, halfPhase := .dataSetup, bitIndex := s.bitIndex + 1#3
      wire := s.wire ++ [(s.dat, some .high)], rxSamples := s.rxSamples ++ [s.dat] } := by
  rw [afterTick_tPulse hp hready hh hi, observed_pulse hl hr hp hh hi] <;> rfl

/-- T.PULSE under the invariants, at the eighth bit. -/
theorem afterTick_completion (hl : LinkInv s) (hr : ReceiverInv s) (hp : s.phase = .transmitting) (hready : s.ready = true)
    (hh : s.halfPhase = .clockPulse) (hi : s.bitIndex = 7#3) : afterTick s = { s with
      clk := some .high, halfPhase := .dataSetup, bitIndex := 0#3, ready := false
      wire := s.wire ++ [(s.dat, some .high)], rxSamples := [], rx := s.rx ++ [(some s.value, s.dc)] } := by
  rw [afterTick_complete hp hready hh hi, observed_complete hl hr hp hh hi] <;> rfl

/-- What one tick can do to the state under the invariants, with the receiver's part written out. -/
inductive Sent (s : State) : State → Prop where
  | iClk (hp : s.phase = .idle) (hs : s.sub = .assertClockIdle) : Sent s { s with clk := some .high, sub := .assertReset }
  | iRst (hp : s.phase = .idle) (hs : s.sub = .assertReset) :
      Sent s { s with rstPending := false, rst := some .high, sub := .assertClockIdle, phase := .transmitting }
  | tSetup (hp : s.phase = .transmitting) (hr : s.ready = true) (hh : s.halfPhase = .dataSetup) :
      Sent s { s with
        dat := some (Level.ofBit (selectedBit s.value s.bitIndex)), clk := some .low, halfPhase := .clockPulse
        wire := s.wire ++ [(some (Level.ofBit (selectedBit s.value s.bitIndex)), some .low)] }
  | tPulse (hp : s.phase = .transmitting) (hr : s.ready = true) (hh : s.halfPhase = .clockPulse) (hi : s.bitIndex ≠ 7#3) :
      Sent s { s with
        clk := some .high, halfPhase := .dataSetup, bitIndex := s.bitIndex + 1#3
        wire := s.wire ++ [(s.dat, some .high)], rxSamples := s.rxSamples ++ [s.dat] }
  | complete (hp : s.phase = .transmitting) (hr : s.ready = true) (hh : s.halfPhase = .clockPulse) (hi : s.bitIndex = 7#3) :
      Sent s { s with
        clk := some .high, halfPhase := .dataSetup, bitIndex := 0#3, ready := false
        wire := s.wire ++ [(s.dat, some .high)], rxSamples := [], rx := s.rx ++ [(some s.value, s.dc)] }
  | tRstgo (hp : s.phase = .transmitting) (hr : s.ready = false) (hq : s.resetReq = true) : Sent s { s with phase := .resetting }
  | tWait (hp : s.phase = .transmitting) (hr : s.ready = false) (hq : s.resetReq = false) : Sent s s
  | rHold (hp : s.phase = .resetting) (hq : s.resetReq = true) :
      Sent s { s with clk := some .high, rst := some .low, rstPending := true, resetReq := false }
  | rExit (hp : s.phase = .resetting) (hq : s.resetReq = false) :
      Sent s { s with clk := some .high, rst := some .low, rstPending := true, phase := .idle }

theorem sent (hl : LinkInv s) (hr : ReceiverInv s) : Sent s (afterTick s) := by
  obtain ⟨hp, hpend, hs⟩ | ⟨hp, hpend, hs⟩ | ⟨hp, hpend⟩ | ⟨hp, hready, hh⟩ | ⟨hp, hready, hh, hi⟩ | ⟨hp, hready, hh, hi⟩ |
    ⟨hp, hready, hq⟩ | ⟨hp, hready, hq⟩ | ⟨hp, hq⟩ | ⟨hp, hq⟩ := tick_cases s
  · rw [afterTick_iClk hp hpend hs, observed_of_otherPhase hl hr (by simp [hp]), hl.levels.1]
    exact .iClk hp hs
  · rw [afterTick_iRst hp hpend hs, observed_of_otherPhase hl hr (by simp [hp]), hl.levels.2]
    exact .iRst hp hs
  · rw [hl.idlePending hp] at hpend; cases hpend
  · rw [afterTick_setup hl hp hready hh]; exact .tSetup hp hready hh
  · rw [afterTick_pulse hl hr hp hready hh hi]; exact .tPulse hp hready hh hi
  · rw [afterTick_completion hl hr hp hready hh hi]; exact .complete hp hready hh hi
  · rw [afterTick_tRstgo hp hready hq]; exact .tRstgo hp hready hq
  · rw [afterTick_tWait hp hready hq]; exact .tWait hp hready hq
  · rw [afterTick_rHold hp hq, observed_of_otherPhase hl hr (by simp [hp])]
    exact .rHold hp hq
  · rw [afterTick_rExit hp hq, observed_of_otherPhase hl hr (by simp [hp])]
    exact .rExit hp hq

/-! ## The receiver invariant -/

theorem Sent.receiverInv {t : State} (ht : Sent s t) (h : ReceiverInv s) : ReceiverInv t := by
  cases ht with
  | tSetup => exact ⟨h.samples, fun _ => rfl⟩
  | tPulse _ _ hh hi =>
    refine ⟨?_, fun h => nomatch h⟩
    show s.rxSamples ++ [s.dat] = sentBits _
    rw [h.samples, h.dataHeld hh, sentBits_append_selectedBit, ← bitIndex_toNat_succ hi]
    rfl
  | complete => exact ⟨rfl, fun h => nomatch h⟩
  | _ => exact ⟨h.samples, h.dataHeld⟩

/-- The receiver's part of the state says nothing of what the host has still to do. -/
theorem ReceiverInv.withHost (h : ReceiverInv s) (l : List HostLine) : ReceiverInv { s with host := l } :=
  ⟨h.samples, h.dataHeld⟩

/-- A move of the host writes the byte on an empty slot only, where no bit of it has been sent. -/
theorem HostKeeps.receiverInv {t : State} (k : HostKeeps s t) (hl : LinkInv s) (hr : ReceiverInv s) : ReceiverInv t := by
  cases hready : s.ready
  · obtain ⟨hi, hh⟩ := hl.emptySlotAtStart hready
    refine ⟨?_, fun h => ?_⟩
    · rw [k.rxSamples, hr.noSamples hi, sentBits_of_start (k.bitIndex.trans hi)]
    · rw [k.halfPhase, hh] at h; cases h
  · obtain ⟨-, value, -, -⟩ := k.slot hready
    refine ⟨?_, ?_⟩
    · rw [k.rxSamples, hr.samples, sentBits, sentBits, value, k.bitIndex]
    · rw [k.halfPhase, k.dat, value, k.bitIndex]; exact hr.dataHeld

end

/-- Settles O36: a tick by its cases, and a move of the host by what it leaves alone. -/
theorem receiverInvariantIsKept : Obligations.ReceiverInvariantIsKept := by
  intro s t hl hr h
  obtain ⟨-, l, rfl⟩ | ⟨-, k⟩ := step_cases h
  · exact (sent (hl.withHost l) (hr.withHost l)).receiverInv (hr.withHost l)
  · exact k.receiverInv hl hr

/-- Of the ticks only the completion adds to `rx`, and it empties the slot. -/
theorem Sent.rx_cases {s t : State} (h : Sent s t) :
    (t.rx = s.rx ∧ (s.ready = true → t.ready = true)) ∨
    (t.rx = s.rx ++ [(some s.value, s.dc)] ∧ s.ready = true ∧ t.ready = false) := by
  cases h with
  | complete _ hready => exact .inr ⟨rfl, hready, rfl⟩
  | _ => exact .inl ⟨rfl, id⟩

/-- Settles O48: a tick by `Sent.rx_cases`; the host neither adds to `rx` nor empties the slot. -/
theorem onlySubmittedBytesAreReceived : Obligations.OnlySubmittedBytesAreReceived := by
  intro s t hl hr h
  obtain ⟨-, l, rfl⟩ | ⟨-, k⟩ := step_cases h
  · exact (sent (hl.withHost l) (hr.withHost l)).rx_cases
  · exact .inl ⟨k.rx, fun hready => (k.slot hready).1⟩

end Sys2Proof.Machine

/-! PROOF. What every step keeps and who owns what (R68, R92, R151, R152, R181, R237): each statement by the cases of a tick and by what
a move of the host leaves alone. -/

namespace Sys2Proof.Machine

/-! ## The lines of initialisation, and the Pixel Buffer -/

/-- Settles O38: neither agent writes them. -/
theorem staticLinesAreNeverDriven : Obligations.StaticLinesAreNeverDriven := by
  intro s t h
  obtain ⟨cs, regen, cfg⟩ : t.cs = s.cs ∧ t.regen = s.regen ∧ t.cfg = s.cfg := by
    obtain ⟨-, l, rfl⟩ | ⟨-, k⟩ := step_cases h
    · simp
    · exact ⟨k.cs, k.regen, k.cfg⟩
  exact ⟨cs, regen, cfg, fun static => by rwa [StaticLines, cs, regen, cfg]⟩

/-- Only the host changes the Pixel Buffer, and in one of four ways. -/
theorem bufMove_of_step {s t : State} (h : step s = .next t) : BufMove s t.buf := by
  cases step_move h with
  | tick l _ => exact .inl (by simp)
  | side l p b m _ hm => exact hm
  | request l _ => exact .inl rfl
  | submit l c v _ _ _ => exact .inl rfl
  | subStep l m _ _ _ _ => cases m <;> exact .inl rfl

/-- An address of a buffer inside its dimensions stays inside after every change of it. -/
theorem BufMove.inside {s : State} {m : Memory} (h : BufMove s m) (hc : s.cfg.wf) (hs : BufferInside s) :
    ∀ c ∈ m, c.1 < s.cfg.pages * s.cfg.cols := by
  intro c hm
  rcases h with rfl | rfl | ⟨x, y, b, hx, hy, rfl⟩ | ⟨x, p, g, hp, hx, rfl⟩
  · exact hs c hm
  · cases hm
  · rcases Memory.mem_write hm with hw | hm
    · rw [hw]
      exact cellAddress_lt (pageOfRow_lt hc hy) hx
    · exact hs c hm
  · rcases Memory.mem_writeMany hm with ⟨-, hlt⟩ | hm
    · have last : s.cfg.cellAddress p (x + 4) < s.cfg.pages * s.cfg.cols := cellAddress_lt hp (by omega)
      simp only [Vector.length_toList, Config.cellAddress] at hlt last
      omega
    · exact hs c hm

/-- Settles O39: every change of the buffer keeps its form, and a tick is none. -/
theorem pixelBufferKeepsItsForm : Obligations.PixelBufferKeepsItsForm := by
  intro s t h
  have move := bufMove_of_step h
  have cfg : t.cfg = s.cfg := (staticLinesAreNeverDriven s t h).2.2.1
  refine ⟨move.wf, fun hc hs => ?_, fun u hu => ?_⟩
  · rw [BufferInside, cfg]
    exact move.inside hc hs
  · cases (exec_tick s).symm.trans hu
    exact afterTick_buf s

/-! ## The phase, the slot and the request -/

/-- Settles O41: of the ticks, I.RST and I.SKIP, T.RSTGO, and R.EXIT change the phase; the host does not. -/
theorem phaseFollowsTheTransitionTable : Obligations.PhaseFollowsTheTransitionTable := by
  intro s t h hne
  obtain ⟨-, l, rfl⟩ | ⟨-, k⟩ := step_cases h
  · have ht := ticked { s with host := l }
    generalize afterTick { s with host := l } = t at ht hne ⊢
    cases ht with
    | iRst hp _ hs => exact .inl ⟨hp, rfl, .inr hs⟩
    | iSkip hp hr => exact .inl ⟨hp, rfl, .inl hr⟩
    | tRstgo hp hr hq => exact .inr (.inl ⟨hp, rfl, hr, hq, hq⟩)
    | rExit hp hq => exact .inr (.inr ⟨hp, rfl, hq, rfl, rfl⟩)
    | _ => exact absurd rfl hne
  · exact absurd k.phase hne

/-- Only the completion empties the slot (R23). -/
theorem Ticked.emptied {s t : State} (h : Ticked s t) (hr : s.ready = true) (ht : t.ready = false) :
    s.phase = .transmitting ∧ s.bitIndex = 7#3 ∧ s.halfPhase = .clockPulse := by
  cases h with
  | complete hp _ hh hi => exact ⟨hp, hi, hh⟩
  | _ => exact absurd (hr.symm.trans ht) (by decide)

/-- Settles O42: a tick writes neither the byte nor its kind nor `DC`, and the host leaves a full slot alone. -/
theorem fullSlotIsLeftAloneUntilCompletion : Obligations.FullSlotIsLeftAloneUntilCompletion := by
  intro s t h hr
  obtain ⟨-, l, rfl⟩ | ⟨-, k⟩ := step_cases h
  · exact ⟨by simp, by simp, by simp, (ticked { s with host := l }).emptied hr⟩
  · obtain ⟨ready, value, kind, dc⟩ := k.slot hr
    exact ⟨value, kind, dc, fun ht => absurd (ready.symm.trans ht) (by decide)⟩

/-- Settles O43: the frame of a tick, a TICK step as a tick, and the frame of a host move. -/
theorem tickWritesOnlyItsOwnState : Obligations.TickWritesOnlyItsOwnState := by
  refine ⟨fun s t h => ?_, fun s h => ?_, fun s t hn h => ?_⟩
  · cases (exec_tick s).symm.trans h
    exact ⟨afterTick_value s, afterTick_isCommand s, afterTick_dc s, afterTick_cs s, afterTick_regen s, afterTick_buf s,
      afterTick_host s, afterTick_lastPoll s, afterTick_busData s, afterTick_subDone s, (ticked s).wasFull, (ticked s).wasRequested⟩
  · obtain ⟨l, hl⟩ := step_ticks h
    exact ⟨l, hl.trans (exec_tick _).symm⟩
  · obtain ⟨ht, -⟩ | ⟨-, k⟩ := step_cases h
    · exact absurd (ht.symm.trans hn) (by decide)
    · exact ⟨k.phase, k.sub, k.rstPending, k.bitIndex, k.halfPhase, k.clk, k.dat, k.rst⟩

/-- Of the ticks only R.HOLD consumes a request (R147). -/
theorem Ticked.consumed {s t : State} (h : Ticked s t) (hq : s.resetReq = true) (ht : t.resetReq = false) :
    s.phase = .resetting ∧ t.phase = .resetting ∧ t.rst = some .low ∧ t.rstPending = true := by
  cases h with
  | rHold hp => exact ⟨hp, hp, rfl, rfl⟩
  | _ => exact absurd (hq.symm.trans ht) (by decide)

/-- Settles O44: the host only sets the request, and in phase Resetting a requested tick is R.HOLD. -/
theorem resetRequestIsNeverLost : Obligations.ResetRequestIsNeverLost := by
  intro s t h hq hcleared
  obtain ⟨tick, l, rfl⟩ | ⟨-, k⟩ := step_cases h
  · obtain ⟨phase, after⟩ := (ticked { s with host := l }).consumed hq hcleared
    have hold : decodeState s.stateWord = some .rHold :=
      (decodeState_stateWord s).trans (congrArg some (microOp_of_resetting_requested phase hq))
    exact ⟨tick, hold, ⟨l, h.trans (exec_of_decodeState (s := { s with host := l }) hold).symm⟩, phase, after⟩
  · exact absurd ((k.resetReq hq).symm.trans hcleared) (by decide)

theorem halfPhase_cases (s : State) : s.halfPhase = .dataSetup ∨ s.halfPhase = .clockPulse := by
  cases s.halfPhase
  · exact .inl rfl
  · exact .inr rfl

/-- With a full slot the tick is a half of a bit period, which neither reads nor writes the request (R144, R149). -/
theorem afterTick_withRequest {s : State} (b : Bool) (hp : s.phase = .transmitting) (hr : s.ready = true) :
    afterTick { s with resetReq := b } = { afterTick s with resetReq := b } := by
  obtain hh | hh := halfPhase_cases s
  · rw [afterTick_tSetup hp hr hh, afterTick_tSetup (s := { s with resetReq := b }) hp hr hh]
    rfl
  · by_cases hi : s.bitIndex = 7#3
    · rw [afterTick_complete hp hr hh hi, afterTick_complete (s := { s with resetReq := b }) hp hr hh hi]
      rfl
    · rw [afterTick_tPulse hp hr hh hi, afterTick_tPulse (s := { s with resetReq := b }) hp hr hh hi]
      rfl

/-- Settles O45: the tick does not read the request, and the halves of a bit period drive neither `RST` nor the phase. -/
theorem resetRequestIsDeferredPastTheByte : Obligations.ResetRequestIsDeferredPastTheByte := by
  intro s t b hp hr h
  cases (exec_tick s).symm.trans h
  refine ⟨(exec_tick _).trans (congrArg Host.Outcome.next (afterTick_withRequest b hp hr)), ?_⟩
  have ht := ticked s
  generalize afterTick s = t at ht
  cases ht <;> simp_all

end Sys2Proof.Machine

/-! PROOF. The initialisation state (R38, R260), the edges of `CLK` (R152 item 8), and a submission written out in its micro-steps
(R68, R92, R171). -/

namespace Sys2Proof.Machine

/-! ## The initialisation state -/

theorem machine_pages : Config.machine.pages = Config.openPagesPred.val + 1 :=
  Nat.mul_div_cancel_left _ (by decide)

theorem machine_wf : Config.machine.wf := by
  have := Config.openPagesPred.isLt
  refine ⟨Nat.succ_pos _, Nat.mul_pos (by decide) (Nat.succ_pos _), Nat.mul_mod_right _ _, ?_⟩
  rw [machine_pages]
  omega

/-- Settles O32: the fields as R38 writes them, and the bounds of R7 on the machine's own dimensions. -/
theorem resetIsTheInitialisationState : Obligations.ResetIsTheInitialisationState := by
  intro c
  refine ⟨rfl, rfl, rfl, rfl, rfl, rfl, rfl, rfl, rfl, rfl, rfl, rfl, rfl, fun regen => ?_, rfl, rfl, rfl,
    ⟨rfl, rfl, rfl, rfl, rfl, rfl⟩, machine_wf⟩
  rw [resetWith_regen, if_pos regen]

theorem linkInv_resetWith {c : Config} (hd : DefaultLevels c) (hp : c.initRstPending = true) : LinkInv (State.resetWith c) := by
  constructor
  case levels => exact hd
  case idlePending => exact fun _ => hp
  all_goals simp

theorem receiverInv_resetWith (c : Config) : ReceiverInv (State.resetWith c) := ⟨rfl, fun h => nomatch h⟩

/-- Settles O34: in phase Idle, with an empty slot, nothing driven and nothing in the buffer, most items ask for nothing. -/
theorem invariantsHoldAtReset : Obligations.InvariantsHoldAtReset :=
  ⟨fun c hd hp => ⟨linkInv_resetWith hd hp, receiverInv_resetWith c, (fun h => nomatch h), ⟨rfl, rfl⟩, (fun _ h => nomatch h), rfl,
      (fun _ h => nomatch h)⟩,
    linkInv_resetWith ⟨rfl, rfl⟩ rfl, receiverInv_resetWith _⟩

/-! ## The edges of the clock line -/

/-- Where the clock line is driven, its edges are the changes of the half (R152 item 7 before and after). -/
theorem clockEdges_iff {s t : State} (hs : LinkInv s) (ht : LinkInv t) (driven : t.halfPhase = .clockPulse → s.clk ≠ none)
    (kept : s.halfPhase = .clockPulse → t.clk ≠ none) :
    (s.clk = some .low ∧ t.clk = some .high ↔ s.halfPhase = .clockPulse ∧ t.halfPhase = .dataSetup) ∧
    (s.clk = some .high ∧ t.clk = some .low ↔ s.halfPhase = .dataSetup ∧ t.halfPhase = .clockPulse) := by
  rw [hs.clkLow, ht.clkLow]
  refine ⟨and_congr_right fun hh => ht.clkHigh (kept hh), and_congr_left fun hh => hs.clkHigh (driven hh)⟩

theorem clk_driven_of_pulse {s : State} (hs : LinkInv s) (hh : s.halfPhase = .clockPulse) : s.clk ≠ none := by
  rw [hs.clkLow.mpr hh]
  exact Option.some_ne_none _

/-- No line goes back to undriven. -/
theorem Ticked.clk_driven {s t : State} (h : Ticked s t) (hc : s.clk ≠ none) : t.clk ≠ none := by
  cases h <;> simp [hc]

/-- A tick that leaves the pulse half found the clock line driven: T.SETUP is in phase Transmitting, after I.CLK. -/
theorem Ticked.clk_driven_before {s t : State} (h : Ticked s t) (hs : LinkInv s) (ht : t.halfPhase = .clockPulse) :
    s.clk ≠ none := by
  cases h with
  | tSetup hp =>
    intro hc
    exact absurd (hp.symm.trans (hs.clkUndriven hc).1) (by decide)
  | tPulse => cases ht
  | complete => cases ht
  | _ => exact clk_driven_of_pulse hs ht

theorem Ticked.pulse_iff {s t : State} (h : Ticked s t) :
    s.halfPhase = .clockPulse ∧ t.halfPhase = .dataSetup ↔ decodeState s.stateWord = some .tPulse := by
  rw [decodeState_stateWord]
  cases h <;> simp_all [microOp]

theorem Ticked.setup_iff {s t : State} (h : Ticked s t) :
    s.halfPhase = .dataSetup ∧ t.halfPhase = .clockPulse ↔ decodeState s.stateWord = some .tSetup := by
  rw [decodeState_stateWord]
  cases h <;> simp_all [microOp]

theorem Ticked.clockEdges {s t : State} (h : Ticked s t) (hs : LinkInv s) :
    (s.clk = some .low ∧ t.clk = some .high ↔ s.halfPhase = .clockPulse ∧ t.halfPhase = .dataSetup) ∧
    (s.clk = some .high ∧ t.clk = some .low ↔ s.halfPhase = .dataSetup ∧ t.halfPhase = .clockPulse) :=
  clockEdges_iff hs (h.linkInv hs) (h.clk_driven_before hs) fun hh => h.clk_driven (clk_driven_of_pulse hs hh)

/-- Settles O40: a tick's edges are its changes of the half, which T.PULSE and T.SETUP make; the host moves neither. -/
theorem clockEdgesAreSetupAndPulse : Obligations.ClockEdgesAreSetupAndPulse := by
  intro s t hs
  refine ⟨fun h => ?_, fun h => ?_⟩
  · obtain ⟨-, l, rfl⟩ | ⟨-, k⟩ := step_cases h
    · exact (ticked { s with host := l }).clockEdges (hs.withHost l)
    · exact clockEdges_iff hs (k.linkInv hs) (fun hh => clk_driven_of_pulse hs (k.halfPhase.symm.trans hh))
        (fun hh => by rw [k.clk]; exact clk_driven_of_pulse hs hh)
  · cases (exec_tick s).symm.trans h
    have ht := ticked s
    obtain ⟨rise, fall⟩ := ht.clockEdges hs
    exact ⟨rise.trans ht.pulse_iff, fall.trans ht.setup_iff⟩

/-! ## A submission written out -/

/-- The places a micro-step has among those done (R171). -/
theorem follows_cases {d : List SubStep} {m : SubStep} (h : SubStep.follows d m = true) :
    (∃ c, m = .driveDc c ∧ d = []) ∨
    (∃ c k v, m = .writeValue v ∧ (d = [.driveDc c] ∨ d = [.driveDc c, .writeKind k])) ∨
    (∃ c v, m = .writeKind c ∧ (d = [.driveDc c] ∨ d = [.driveDc c, .writeValue v])) ∨
    (∃ c v, m = .publish ∧ (d = [.driveDc c, .writeValue v, .writeKind c] ∨ d = [.driveDc c, .writeKind c, .writeValue v])) := by
  unfold SubStep.follows at h
  split at h
  · exact .inl ⟨_, rfl, rfl⟩
  · exact .inr (.inl ⟨_, false, _, rfl, .inl rfl⟩)
  · cases eq_of_beq h; exact .inr (.inr (.inl ⟨_, 0, rfl, .inl rfl⟩))
  · cases eq_of_beq h; exact .inr (.inr (.inl ⟨_, _, rfl, .inr rfl⟩))
  · exact .inr (.inl ⟨_, _, _, rfl, .inr rfl⟩)
  · cases eq_of_beq h; exact .inr (.inr (.inr ⟨_, _, rfl, .inl rfl⟩))
  · cases eq_of_beq h; exact .inr (.inr (.inr ⟨_, _, rfl, .inr rfl⟩))
  · cases h

/-- What the host has written out stays in place where nothing of it is written again. -/
theorem SubWritesInPlace.of_frame {s t : State} (h : SubWritesInPlace s) (done : t.subDone = s.subDone) (cfg : t.cfg = s.cfg)
    (dc : t.dc = s.dc) (value : t.value = s.value) (kind : t.isCommand = s.isCommand) : SubWritesInPlace t := by
  intro m hm
  rw [done] at hm
  have written : t.subWritten m = s.subWritten m := by cases m <;> simp [State.subWritten, cfg, dc, value, kind]
  exact written.trans (h m hm)

/-- A micro-step in its place leaves the writes before it in place and adds its own. -/
theorem SubWritesInPlace.subStep {s : State} {m : SubStep} (h : SubWritesInPlace s) (hf : SubStep.follows s.subDone m = true) :
    SubWritesInPlace (s.subStep m) := by
  obtain ⟨c, rfl, -⟩ | ⟨c, k, v, rfl, hd | hd⟩ | ⟨c, v, rfl, hd | hd⟩ | ⟨c, v, rfl, -⟩ := follows_cases hf <;>
    simp_all [SubWritesInPlace, State.subStep, State.subWritten]

/-- At the publish all three writes are in place, with one kind in `DC` and in the slot. -/
theorem SubWritesInPlace.published {s : State} (h : SubWritesInPlace s) (hf : SubStep.follows s.subDone .publish = true) :
    byteWritten s.subDone = some (s.isCommand, s.value) ∧ s.dc = some (s.cfg.dcLevel s.isCommand) := by
  obtain ⟨c, hm, -⟩ | ⟨c, k, v, hm, -⟩ | ⟨c, v, hm, -⟩ | ⟨c, v, -, hd | hd⟩ := follows_cases hf
  · cases hm
  · cases hm
  · cases hm
  all_goals
    have dc := h (.driveDc c) (by simp [hd])
    have value := h (.writeValue v) (by simp [hd])
    have kind := h (.writeKind c) (by simp [hd])
    simp only [State.subWritten, beq_iff_eq] at dc value kind
    simp [byteWritten, hd, dc, value, kind]

/-- A micro-step but the publish does not fill the slot. -/
theorem subStep_ready {s : State} {m : SubStep} (h : m ≠ .publish) : (s.subStep m).ready = s.ready := by
  cases m <;> simp_all [State.subStep]

/-- Settles O37: only the host's submissions write `DC` or the slot, each with one kind in both. -/
theorem kindStaysOnTheLine : Obligations.KindStaysOnTheLine := by
  intro s t hw hk h
  cases step_move h with
  | tick l _ =>
    refine ⟨hw.of_frame (by simp) (by simp) (by simp) (by simp) (by simp), fun hr => ?_⟩
    rw [afterTick_dc, afterTick_cfg, afterTick_isCommand]
    exact hk ((ticked { s with host := l }).wasFull hr)
  | side l p b m _ _ => exact ⟨hw.of_frame rfl rfl rfl rfl rfl, hk⟩
  | request l _ => exact ⟨hw.of_frame rfl rfl rfl rfl rfl, hk⟩
  | submit l c v _ _ _ => exact ⟨(fun _ hm => nomatch hm), fun _ => rfl⟩
  | subStep l m _ _ hr hf =>
    have hw' : SubWritesInPlace { s with host := l } := hw
    refine ⟨hw'.subStep hf, fun ht => ?_⟩
    by_cases hm : m = .publish
    · subst hm; exact (hw'.published hf).2
    · rw [subStep_ready hm, hr] at ht
      cases ht

/-- Settles O60: a tick, a read and a request do not fill the slot; a submission does at its line, and a micro-step does as the
publish. -/
theorem onlyAWholeSubmissionFillsTheSlot : Obligations.OnlyAWholeSubmissionFillsTheSlot := by
  intro s t hw h hr ht
  cases step_move h with
  | tick l _ => rw [(ticked { s with host := l }).empty hr] at ht; cases ht
  | side l p b m _ _ => rw [hr] at ht; cases ht
  | request l _ => rw [hr] at ht; cases ht
  | submit l c v _ hs _ => exact ⟨c, v, hs, rfl, rfl, rfl, rfl⟩
  | subStep l m _ hs _ hf =>
    by_cases hm : m = .publish
    · subst hm
      obtain ⟨written, dc⟩ := hw.published hf
      exact ⟨s.isCommand, s.value, by rw [hostSubmits, hs]; exact written, rfl, rfl, dc, rfl⟩
    · rw [subStep_ready hm, hr] at ht
      cases ht

/-! ## The micro-steps one after the other, and a tick between two of them -/

theorem step_subStep {s : State} {m : SubStep} {rest : List HostLine} (hl : s.host = .subStep m :: rest) (hr : s.ready = false)
    (hf : SubStep.follows s.subDone m = true) : step s = .next (State.subStep { s with host := rest } m) := by
  rw [step_of_ne_wait hl (by simp [waitLine])]
  simp [fetchLine, Fetched.answer, execSubStep, hr, hf]

theorem step_subStep_outOfOrder {s : State} {m : SubStep} {rest : List HostLine} (hl : s.host = .subStep m :: rest)
    (hr : s.ready = false) (hf : SubStep.follows s.subDone m = false) : step s = .refused (.subStepOutOfOrder m) := by
  rw [step_of_ne_wait hl (by simp [waitLine])]
  simp [fetchLine, Fetched.answer, execSubStep, hr, hf]

/-- The state with the fields a SUB writes, its publish apart, at other values. -/
def State.withSlot (s : State) (dc : Option Level) (value : Byte) (kind : Bool) (done : List SubStep) : State :=
  { s with dc := dc, value := value, isCommand := kind, subDone := done }

/-- Without a clock edge the receiver reads none of them. -/
theorem observed_withSlot {a b : State} (h : risingEdge a b = false) (dc : Option Level) (value : Byte) (kind : Bool)
    (done : List SubStep) : (a.withSlot dc value kind done).observed (b.withSlot dc value kind done) =
      (a.observed b).withSlot dc value kind done := by
  have edge : risingEdge (a.withSlot dc value kind done) (b.withSlot dc value kind done) = false := h
  rw [State.observed, State.observed, nextSamples_of_noRise h, nextRx_of_noRise h, nextSamples_of_noRise edge,
    nextRx_of_noRise edge]
  rfl

/-- On an empty slot a tick neither reads nor writes them (R171). -/
theorem afterTick_withSlot {s : State} (h : LinkInv s) (hr : s.ready = false) (dc : Option Level) (value : Byte) (kind : Bool)
    (done : List SubStep) : afterTick (s.withSlot dc value kind done) = (afterTick s).withSlot dc value kind done := by
  have noRise := h.noRise (h.emptySlotAtStart hr).2
  obtain ⟨hp, hpend, hs⟩ | ⟨hp, hpend, hs⟩ | ⟨hp, hpend⟩ | ⟨-, hfull, -⟩ | ⟨-, hfull, -⟩ | ⟨-, hfull, -⟩ | ⟨hp, -, hq⟩ |
    ⟨hp, -, hq⟩ | ⟨hp, hq⟩ | ⟨hp, hq⟩ := tick_cases s
  · rw [afterTick_iClk hp hpend hs, ← observed_withSlot (noRise _)]; exact afterTick_iClk hp hpend hs
  · rw [afterTick_iRst hp hpend hs, ← observed_withSlot (noRise _)]; exact afterTick_iRst hp hpend hs
  · rw [afterTick_iSkip hp hpend]; exact afterTick_iSkip hp hpend
  · exact absurd (hr.symm.trans hfull) (by decide)
  · exact absurd (hr.symm.trans hfull) (by decide)
  · exact absurd (hr.symm.trans hfull) (by decide)
  · rw [afterTick_tRstgo hp hr hq]; exact afterTick_tRstgo hp hr hq
  · rw [afterTick_tWait hp hr hq]; exact afterTick_tWait hp hr hq
  · rw [afterTick_rHold hp hq, ← observed_withSlot (noRise _)]; exact afterTick_rHold hp hq
  · rw [afterTick_rExit hp hq, ← observed_withSlot (noRise _)]; exact afterTick_rExit hp hq

/-- A micro-step other than the publish writes no field of the state word. -/
theorem stateWord_subStep (s : State) {m : SubStep} (hm : m ≠ .publish) : (s.subStep m).stateWord = s.stateWord := by
  cases m with
  | publish => exact absurd rfl hm
  | _ => rfl

theorem afterTick_subStep {s : State} {m : SubStep} (h : LinkInv s) (hr : s.ready = false) (hm : m ≠ .publish) :
    afterTick (s.subStep m) = (afterTick s).subStep m := by
  cases m with
  | driveDc c =>
    refine (afterTick_withSlot h hr (some (s.cfg.dcLevel c)) s.value s.isCommand [.driveDc c]).trans ?_
    rw [← afterTick_cfg s, ← afterTick_value s, ← afterTick_isCommand s]
    rfl
  | writeValue v =>
    refine (afterTick_withSlot h hr s.dc v s.isCommand (s.subDone ++ [.writeValue v])).trans ?_
    rw [← afterTick_dc s, ← afterTick_isCommand s, ← afterTick_subDone s]
    rfl
  | writeKind c =>
    refine (afterTick_withSlot h hr s.dc s.value c (s.subDone ++ [.writeKind c])).trans ?_
    rw [← afterTick_dc s, ← afterTick_value s, ← afterTick_subDone s]
    rfl
  | publish => exact absurd rfl hm

/-- Settles O27: four steps of the written-out SUB, the refusal out of order, and the tick that commutes with a micro-step. -/
theorem subMicroStepsComposeToSub : Obligations.SubMicroStepsComposeToSub := by
  refine ⟨fun s c v rest hr hd ms hms => ?_, fun s m rest hl hr hf => step_subStep_outOfOrder hl hr hf,
    fun s t m h hr hm ht => ?_⟩
  · rw [exec_submission_empty (s := { s with host := rest }) (i := .sub c v) rfl hr]
    simp only [List.mem_cons, List.not_mem_nil, or_false] at hms
    rcases hms with rfl | rfl
    all_goals
      refine Eq.trans (run_succ 3 (step_subStep rfl hr ?_)) ?_
      · rw [hd]; rfl
      refine Eq.trans (run_succ 2 (step_subStep rfl hr (by simp [State.subStep, SubStep.follows]))) ?_
      refine Eq.trans (run_succ 1 (step_subStep rfl hr (by simp [State.subStep, SubStep.follows]))) ?_
      refine Eq.trans (run_succ 0 (step_subStep rfl hr (by simp [State.subStep, SubStep.follows]))) ?_
      rfl
  · cases (exec_tick s).symm.trans ht
    exact ⟨stateWord_subStep s hm, (exec_tick _).trans (congrArg Host.Outcome.next (afterTick_subStep h hr hm))⟩

end Sys2Proof.Machine

/-! PROOF. A byte on the wire (R123, R124, R153): its bits two ticks at a time, and the ticks before its first bit. -/

namespace Sys2Proof.Machine

/-! ## Ticks one after the other -/

/-- The state after `n` ticks. -/
def afterTicks : Nat → State → State
  | 0, s => s
  | n + 1, s => afterTicks n (afterTick s)

theorem afterTicks_succ (n : Nat) (s : State) : afterTicks (n + 1) s = afterTicks n (afterTick s) := rfl

theorem afterTicks_succ' (n : Nat) (s : State) : afterTicks (n + 1) s = afterTick (afterTicks n s) := by
  induction n generalizing s with
  | zero => rfl
  | succ n ih => rw [afterTicks_succ, ih, ← afterTicks_succ]

theorem ticks_eq (n : Nat) (s : State) : ticks n s = .next (afterTicks n s) := by
  induction n generalizing s with
  | zero => rfl
  | succ n ih => rw [ticks, exec_tick, afterTicks_succ]; exact ih _

/-- What no tick writes, no number of ticks writes. -/
theorem afterTicks_of_frame {α : Type} {f : State → α} (h : ∀ s, f (afterTick s) = f s) (n : Nat) (s : State) :
    f (afterTicks n s) = f s := by
  induction n generalizing s with
  | zero => rfl
  | succ n ih => rw [afterTicks_succ, ih, h]

/-- The invariants hold after any number of ticks. -/
theorem afterTicks_inv {s : State} (hl : LinkInv s) (hr : ReceiverInv s) (n : Nat) :
    LinkInv (afterTicks n s) ∧ ReceiverInv (afterTicks n s) := by
  induction n with
  | zero => exact ⟨hl, hr⟩
  | succ n ih =>
    obtain ⟨hl, hr⟩ := ih
    rw [afterTicks_succ']
    exact ⟨(ticked _).linkInv hl, (sent hl hr).receiverInv hr⟩

theorem HostWaits.afterTick {s : State} (h : HostWaits s) : HostWaits (afterTick s) := by
  rwa [HostWaits, afterTick_host]

/-- While the slot stays full and the host waits, the steps are ticks. -/
theorem runSteps_of_full {k : Nat} {s : State} (hw : HostWaits s) (hfull : ∀ j < k, (afterTicks j s).ready = true) :
    runSteps k s = .next (afterTicks k s) := by
  induction k generalizing s with
  | zero => rfl
  | succ k ih =>
    have ready : s.ready = true := hfull 0 (Nat.succ_pos k)
    rw [run_succ k (step_hostWaits ready hw), ih hw.afterTick fun j hj => hfull (j + 1) (by omega)]
    rfl

/-! ## The bits of a byte -/

/-- The two entries of the wire log for bit `i` of a byte, most significant bit first (R91). -/
def bitEntries (b : Byte) (i : Nat) : List (Option Level × Option Level) :=
  [(some (Level.ofBit (b.getLsbD (7 - i))), some .low), (some (Level.ofBit (b.getLsbD (7 - i))), some .high)]

/-- The entries of the first `n` bits. -/
def waveformUpTo (b : Byte) (n : Nat) : List (Option Level × Option Level) := (List.range n).flatMap (bitEntries b)

theorem waveformUpTo_succ (b : Byte) (n : Nat) : waveformUpTo b (n + 1) = waveformUpTo b n ++ bitEntries b n := by
  simp [waveformUpTo, List.range_succ]

theorem waveformUpTo_eight (b : Byte) : waveformUpTo b 8 = waveform b := rfl

section
variable {s : State}

/-- A bit before the eighth, in two ticks (R121, R122). -/
theorem afterTick_bit (hl : LinkInv s) (hr : ReceiverInv s) (hp : s.phase = .transmitting) (hready : s.ready = true)
    (hh : s.halfPhase = .dataSetup) (hi : s.bitIndex ≠ 7#3) :
    ∃ r, afterTick (afterTick s) = { s with
      dat := some (Level.ofBit (selectedBit s.value s.bitIndex)), clk := some .high, halfPhase := .dataSetup
      bitIndex := s.bitIndex + 1#3, wire := s.wire ++ bitEntries s.value s.bitIndex.toNat, rxSamples := r } := by
  have hl' := (ticked s).linkInv hl
  have hr' := (sent hl hr).receiverInv hr
  rw [afterTick_setup hl hp hready hh] at hl' hr'
  rw [afterTick_setup hl hp hready hh, afterTick_pulse hl' hr' hp hready rfl hi, List.append_assoc]
  exact ⟨_, rfl⟩

/-- The eighth bit, in two ticks, with the completion (R122, R124). -/
theorem afterTick_lastBit (hl : LinkInv s) (hr : ReceiverInv s) (hp : s.phase = .transmitting) (hready : s.ready = true)
    (hh : s.halfPhase = .dataSetup) (hi : s.bitIndex = 7#3) :
    afterTick (afterTick s) = { s with
      dat := some (Level.ofBit (s.value.getLsbD 0)), clk := some .high, halfPhase := .dataSetup, bitIndex := 0#3
      ready := false, wire := s.wire ++ bitEntries s.value 7, rxSamples := [], rx := s.rx ++ [(some s.value, s.dc)] } := by
  have hl' := (ticked s).linkInv hl
  have hr' := (sent hl hr).receiverInv hr
  rw [afterTick_setup hl hp hready hh] at hl' hr'
  rw [afterTick_setup hl hp hready hh, afterTick_completion hl' hr' hp hready rfl hi, List.append_assoc, hi]
  rfl

/-- After `n` whole bits, at most seven, the byte is still in the slot. -/
theorem afterTicks_bits (hl : LinkInv s) (hr : ReceiverInv s) (hp : s.phase = .transmitting) (hready : s.ready = true)
    (hi : s.bitIndex = 0#3) (hh : s.halfPhase = .dataSetup) : ∀ n ≤ 7, ∃ c d r,
      afterTicks (2 * n) s = { s with
        clk := c, dat := d, bitIndex := BitVec.ofNat 3 n, wire := s.wire ++ waveformUpTo s.value n, rxSamples := r }
  | 0, _ => ⟨s.clk, s.dat, s.rxSamples, by simp [afterTicks, waveformUpTo, ← hi]⟩
  | n + 1, hn => by
    obtain ⟨c, d, r, hu⟩ := afterTicks_bits hl hr hp hready hi hh n (by omega)
    obtain ⟨hl', hr'⟩ := afterTicks_inv hl hr (2 * n)
    rw [hu] at hl' hr'
    have index : (BitVec.ofNat 3 n).toNat = n := by simp; omega
    have not_last : BitVec.ofNat 3 n ≠ 7#3 := fun h => by
      have := congrArg BitVec.toNat h
      rw [index] at this
      simp at this
      omega
    obtain ⟨r', hbit⟩ := afterTick_bit hl' hr' hp hready hh not_last
    refine ⟨some .high, some (Level.ofBit (selectedBit s.value (BitVec.ofNat 3 n))), r', ?_⟩
    rw [show 2 * (n + 1) = 2 * n + 1 + 1 from rfl, afterTicks_succ', afterTicks_succ', hu, hbit]
    simp only [index, List.append_assoc, ← waveformUpTo_succ, hh, BitVec.ofNat_add]

/-- Before the sixteenth tick the byte is in the slot and nothing is received. -/
theorem afterTicks_before (hl : LinkInv s) (hr : ReceiverInv s) (hp : s.phase = .transmitting) (hready : s.ready = true)
    (hi : s.bitIndex = 0#3) (hh : s.halfPhase = .dataSetup) {k : Nat} (hk : k < 16) :
    (afterTicks k s).ready = true ∧ (afterTicks k s).rx = s.rx := by
  obtain ⟨c, d, r, hu⟩ := afterTicks_bits hl hr hp hready hi hh (k / 2) (by omega)
  have hl' := (afterTicks_inv hl hr (2 * (k / 2))).1
  rw [hu] at hl'
  obtain even | odd : k = 2 * (k / 2) ∨ k = 2 * (k / 2) + 1 := by omega
  · rw [even, hu]
    exact ⟨hready, rfl⟩
  · rw [odd, afterTicks_succ', hu, afterTick_setup hl' hp hready hh]
    exact ⟨hready, rfl⟩

/-- Sixteen ticks: seven bits, and the eighth with the completion. -/
theorem afterTicks_sixteen (hl : LinkInv s) (hr : ReceiverInv s) (hp : s.phase = .transmitting) (hready : s.ready = true)
    (hi : s.bitIndex = 0#3) (hh : s.halfPhase = .dataSetup) :
    afterTicks 16 s = { s with
      ready := false, clk := some .high, dat := some (Level.ofBit (s.value.getLsbD 0)),
      wire := s.wire ++ waveform s.value, rx := s.rx ++ [(some s.value, s.dc)] } := by
  obtain ⟨c, d, r, hu⟩ := afterTicks_bits hl hr hp hready hi hh 7 (by omega)
  obtain ⟨hl', hr'⟩ := afterTicks_inv hl hr (2 * 7)
  rw [hu] at hl' hr'
  have last := afterTick_lastBit hl' hr' hp hready hh rfl
  rw [show 16 = 2 * 7 + 1 + 1 from rfl, afterTicks_succ', afterTicks_succ', hu, last]
  simp only [List.append_assoc, ← waveformUpTo_succ, ← waveformUpTo_eight, ← hr.noSamples hi, ← hi, ← hh]

end

/-- Settles O46: with the slot full and the host waiting the steps are ticks. -/
theorem sixteenTicksSendTheByte : Obligations.SixteenTicksSendTheByte := by
  intro s hl hr hw hp hready hi hh
  have before {k : Nat} := afterTicks_before hl hr hp hready hi hh (k := k)
  have run (k : Nat) (hk : k ≤ 16) : runSteps k s = .next (afterTicks k s) :=
    runSteps_of_full hw fun j hj => (before (by omega)).1
  exact ⟨⟨_, run 16 (Nat.le_refl 16), afterTicks_sixteen hl hr hp hready hi hh⟩,
    fun k hk => ⟨_, run k (Nat.le_of_lt hk), before hk⟩⟩

/-! ## The latency of a byte -/

/-- The byte in the slot completes at exactly the `n`th tick, and the receiver has it then. -/
structure CompletesIn (n : Nat) (s : State) : Prop where
  before : ∀ k < n, (afterTicks k s).ready = true
  empty : (afterTicks n s).ready = false
  phase : (afterTicks n s).phase = .transmitting
  wire : (afterTicks n s).wire = s.wire ++ waveform s.value
  rx : (afterTicks n s).rx = s.rx ++ [(some s.value, s.dc)]

/-- One tick that only approaches phase Transmitting delays the completion by itself. -/
theorem CompletesIn.succ {n : Nat} {s : State} (h : CompletesIn n (afterTick s)) (hready : s.ready = true)
    (hwire : (afterTick s).wire = s.wire) (hrx : (afterTick s).rx = s.rx) : CompletesIn (n + 1) s where
  before k hk := by
    cases k with
    | zero => exact hready
    | succ k => exact h.before k (by omega)
  empty := h.empty
  phase := h.phase
  wire := by rw [← hwire, ← afterTick_value s]; exact h.wire
  rx := by rw [← hrx, ← afterTick_value s, ← afterTick_dc s]; exact h.rx

/-- A tick outside phase Transmitting is one of the ticks of R153's table, and leaves the byte waiting. -/
theorem Sent.approaches {s t : State} (h : Sent s t) (hl : LinkInv s) (hp : s.phase ≠ .transmitting) :
    ticksToCompletion s = ticksToCompletion t + 1 ∧ t.ready = s.ready ∧ t.bitIndex = s.bitIndex ∧ t.halfPhase = s.halfPhase ∧
    t.wire = s.wire ∧ t.rx = s.rx := by
  cases h with
  | iClk hi hs => simp [ticksToCompletion, hi, hs]
  | iRst hi hs => simp [ticksToCompletion, hi, hs]
  | rHold hi hq => simp [ticksToCompletion, hi, hq]
  | rExit hi hq => simp [ticksToCompletion, hi, hq, hl.subStart (by simp [hi])]
  | _ => contradiction

theorem ticksToCompletion_pos (s : State) : 0 < ticksToCompletion s := by
  unfold ticksToCompletion
  repeat' split
  all_goals decide

theorem ticksToCompletion_transmitting {s : State} (hp : s.phase = .transmitting) : ticksToCompletion s = 16 := by
  simp [ticksToCompletion, hp]

theorem completesIn_sixteen {s : State} (hl : LinkInv s) (hr : ReceiverInv s) (hp : s.phase = .transmitting)
    (hready : s.ready = true) (hi : s.bitIndex = 0#3) (hh : s.halfPhase = .dataSetup) : CompletesIn 16 s := by
  have sixteen := afterTicks_sixteen hl hr hp hready hi hh
  exact ⟨fun k hk => (afterTicks_before hl hr hp hready hi hh hk).1, by rw [sixteen], by rw [sixteen]; exact hp,
    by rw [sixteen], by rw [sixteen]⟩

/-- R153's table: down to phase Transmitting tick by tick, and then the sixteen ticks of the byte. -/
theorem completesIn_ticksToCompletion {s : State} (hl : LinkInv s) (hr : ReceiverInv s) (hready : s.ready = true)
    (hi : s.bitIndex = 0#3) (hh : s.halfPhase = .dataSetup) : CompletesIn (ticksToCompletion s) s := by
  induction hn : ticksToCompletion s generalizing s with
  | zero => exact absurd hn (Nat.ne_of_gt (ticksToCompletion_pos s))
  | succ n ih =>
    by_cases hp : s.phase = .transmitting
    · rw [← hn, ticksToCompletion_transmitting hp]
      exact completesIn_sixteen hl hr hp hready hi hh
    · obtain ⟨count, ready, index, half, wire, rx⟩ := (sent hl hr).approaches hl hp
      have rest := ih ((ticked s).linkInv hl) ((sent hl hr).receiverInv hr) (ready.trans hready) (index.trans hi) (half.trans hh)
        (by omega)
      exact rest.succ hready wire rx

/-- Settles O47: with the slot full and the host waiting the steps are the ticks of R153's table. -/
theorem byteCompletesWithinItsLatency : Obligations.ByteCompletesWithinItsLatency := by
  intro s hl hr hw hready hi hh
  have h := completesIn_ticksToCompletion hl hr hready hi hh
  have run (k : Nat) (hk : k ≤ ticksToCompletion s) : runSteps k s = .next (afterTicks k s) :=
    runSteps_of_full hw fun j hj => h.before j (by omega)
  exact ⟨⟨_, run _ (Nat.le_refl _), h.empty, h.phase, h.wire, h.rx, afterTicks_of_frame afterTick_host _ s⟩,
    fun k hk => ⟨_, run k (Nat.le_of_lt hk), h.before k hk⟩⟩

end Sys2Proof.Machine

/-! PROOF. The host's sequences of bytes (43_host_sequences.md): what the receiver gets of a host that sends by blocking submissions. -/

namespace Sys2Proof.Machine

/-! ## Between two bytes -/

/-- The invariants with an empty slot. -/
structure Quiet (s : State) : Prop where
  link : LinkInv s
  receiver : ReceiverInv s
  empty : s.ready = false

/-- A move of the host that submits nothing. -/
theorem Quiet.hostKeeps {s t : State} (q : Quiet s) (k : HostKeeps s t) (ht : t.ready = false) : Quiet t :=
  ⟨k.linkInv q.link, k.receiverInv q.link q.receiver, ht⟩

theorem Quiet.withHost {s : State} (q : Quiet s) (l : List HostLine) : Quiet { s with host := l } :=
  ⟨q.link.withHost l, q.receiver.withHost l, q.empty⟩

theorem Quiet.afterTick {s : State} (q : Quiet s) : Quiet (afterTick s) :=
  ⟨(ticked s).linkInv q.link, (sent q.link q.receiver).receiverInv q.receiver, (ticked s).empty q.empty⟩

/-- Without a byte in the slot nothing is received. -/
theorem Quiet.rx_afterTick {s : State} (q : Quiet s) : (Machine.afterTick s).rx = s.rx := by
  obtain ⟨rx, -⟩ | ⟨-, full, -⟩ := (sent q.link q.receiver).rx_cases
  · exact rx
  · exact absurd (q.empty.symm.trans full) (by decide)

theorem Quiet.afterTicks {s : State} (q : Quiet s) (n : Nat) :
    Quiet (afterTicks n s) ∧ (afterTicks n s).rx = s.rx := by
  induction n with
  | zero => exact ⟨q, rfl⟩
  | succ n ih =>
    obtain ⟨q', rx⟩ := ih
    rw [afterTicks_succ']
    exact ⟨q'.afterTick, q'.rx_afterTick.trans rx⟩

/-! ## What a run of the host's lines delivers -/

/-- Some run takes the host to the lines left, with the invariants and an empty slot, these bytes received in order, and the buffer and
the parameters unchanged. -/
def Delivers (s : State) (left : List HostLine) (bytes : List (Bool × Byte)) : Prop :=
  ∃ k t, runSteps k s = .next t ∧ Quiet t ∧ t.host = left ∧ t.rx = s.rx ++ bytes.map (received s.cfg) ∧
    t.buf = s.buf ∧ t.cfg = s.cfg

theorem Delivers.nothing {s : State} (q : Quiet s) : Delivers s s.host [] := ⟨0, s, rfl, q, rfl, by simp, rfl, rfl⟩

/-- One delivery after another. -/
theorem Delivers.trans {s : State} {mid left : List HostLine} {early bytes : List (Bool × Byte)}
    (h : Delivers s mid early)
    (onward : ∀ t, Quiet t → t.host = mid → t.buf = s.buf → t.cfg = s.cfg → Delivers t left bytes) :
    Delivers s left (early ++ bytes) := by
  obtain ⟨j, t, run, q, host, rx, buf, cfg⟩ := h
  obtain ⟨k, u, run', q', host', rx', buf', cfg'⟩ := onward t q host buf cfg
  refine ⟨j + k, u, (run_add j k run).trans run', q', host', ?_, buf'.trans buf, cfg'.trans cfg⟩
  rw [rx', rx, cfg, List.map_append, List.append_assoc]

/-- A step that receives nothing delivers nothing. -/
theorem Delivers.of_step {s t : State} (run : step s = .next t) (q : Quiet t) (rx : t.rx = s.rx) (buf : t.buf = s.buf)
    (cfg : t.cfg = s.cfg) : Delivers s t.host [] :=
  ⟨1, t, run_succ 0 run, q, rfl, by simp [rx], buf, cfg⟩

/-- A blocking submission delivers its byte (R175): the publish, the ticks of R153 with the host at the WAIT, and the WAIT. -/
theorem Delivers.subb {s : State} {c : Bool} {v : Byte} {rest : List HostLine} (q : Quiet s) (hh : s.host = .subb c v :: rest) :
    Delivers s rest [(c, v)] := by
  have publish := step_subb q.empty hh
  generalize hu : { s with
    host := waitLine :: rest, dc := some (s.cfg.dcLevel c), value := v, isCommand := c, ready := true, subDone := [] } = u
    at publish
  have kept : HostKeeps s u := by rw [← hu]; exact .submission _ c v q.empty
  obtain ⟨index, half⟩ := q.link.emptySlotAtStart q.empty
  have link := kept.linkInv q.link
  have receiver := kept.receiverInv q.link q.receiver
  have done := completesIn_ticksToCompletion link receiver (by rw [← hu]) (kept.bitIndex.trans index) (kept.halfPhase.trans half)
  generalize ticksToCompletion u = n at done
  obtain ⟨link', receiver'⟩ := afterTicks_inv link receiver n
  have byte := runSteps_of_full (.inr ⟨rest, by rw [← hu]⟩) done.before
  have pass := step_wait done.empty ((afterTicks_of_frame afterTick_host n u).trans (by rw [← hu]))
  refine ⟨1 + (n + 1), _, (run_add 1 _ (run_succ 0 publish)).trans ((run_add n 1 byte).trans (run_succ 0 pass)),
    Quiet.withHost ⟨link', receiver', done.empty⟩ rest, rfl, ?_, ?_, ?_⟩
  · exact done.rx.trans (by rw [kept.rx, ← hu]; rfl)
  · exact (afterTicks_of_frame afterTick_buf n u).trans (by rw [← hu])
  · exact (afterTicks_of_frame afterTick_cfg n u).trans kept.cfg

/-! ## Hosts that send by blocking submissions -/

/-- The words among the lines of a blocking host: TICK, POLL, WAIT and RSTREQ. -/
theorem blocking_word {w : HostWord} (h : (HostLine.word w).blocking = true) :
    w = 0x0000 ∨ w = 0x2000 ∨ w = 0x3000 ∨ w = 0x4000 := by
  simpa [HostLine.blocking, or_assoc] using h

theorem Delivers.blockingLine {s : State} {l : HostLine} {rest : List HostLine} (q : Quiet s) (hb : l.blocking = true)
    (hh : s.host = l :: rest) : Delivers s rest (blockingBytes [l]) := by
  cases l with
  | subb c v => exact .subb q hh
  | word w =>
    obtain rfl | rfl | rfl | rfl := blocking_word hb
    · have h := Delivers.of_step (step_tick hh) (q.withHost rest).afterTick (q.withHost rest).rx_afterTick (by simp) (by simp)
      rwa [afterTick_host] at h
    · exact .of_step ((step_word (.inl q.empty) hh (i := .poll) rfl).trans (exec_poll _))
        (q.hostKeeps (.side s rest (some s.ready) s.busData s.buf) q.empty) rfl rfl rfl
    · exact .of_step (step_wait q.empty hh) (q.withHost rest) rfl rfl rfl
    · exact .of_step (step_rstreq hh) (q.hostKeeps (.request s rest) q.empty) rfl rfl rfl
  | _ => cases hb

theorem Delivers.blockingLines {s : State} {ls rest : List HostLine} (q : Quiet s) (hb : ∀ l ∈ ls, l.blocking = true)
    (hh : s.host = ls ++ rest) : Delivers s rest (blockingBytes ls) := by
  induction ls generalizing s with
  | nil =>
    have h := Delivers.nothing q
    rwa [hh] at h
  | cons l ls ih =>
    have split : blockingBytes (l :: ls) = blockingBytes [l] ++ blockingBytes ls := List.filterMap_append (l := [l])
    rw [split]
    exact (Delivers.blockingLine q (hb l (by simp)) hh).trans fun t q' host _ _ => ih q' (fun l hl => hb l (by simp [hl])) host

/-- Settles O49: line by line, each from the state between two bytes that the line before it left. -/
theorem blockingHostLosesNoByte : Obligations.BlockingHostLosesNoByte := by
  intro s ls rest hl hr hready hb hh
  obtain ⟨k, t, run, q, host, rx, -, -⟩ := Delivers.blockingLines ⟨hl, hr, hready⟩ hb hh
  exact ⟨k, t, run, host, q.empty, rx⟩

end Sys2Proof.Machine

/-! PROOF. INIT, DELAY and FRAME (43_host_sequences.md R201, R202): their lines, and the bytes delivered. -/

namespace Sys2Proof.Machine

/-! ## DELAY -/

/-- A tick does not read the host's lines. -/
theorem afterTick_withHost (s : State) (l : List HostLine) : afterTick { s with host := l } = { afterTick s with host := l } := by
  obtain ⟨hp, hr, hs⟩ | ⟨hp, hr, hs⟩ | ⟨hp, hr⟩ | ⟨hp, hr, hh⟩ | ⟨hp, hr, hh, hi⟩ | ⟨hp, hr, hh, hi⟩ | ⟨hp, hr, hq⟩ |
    ⟨hp, hr, hq⟩ | ⟨hp, hq⟩ | ⟨hp, hq⟩ := tick_cases s
  · rw [afterTick_iClk hp hr hs]; exact afterTick_iClk hp hr hs
  · rw [afterTick_iRst hp hr hs]; exact afterTick_iRst hp hr hs
  · rw [afterTick_iSkip hp hr]; exact afterTick_iSkip hp hr
  · rw [afterTick_tSetup hp hr hh]; exact afterTick_tSetup hp hr hh
  · rw [afterTick_tPulse hp hr hh hi]; exact afterTick_tPulse hp hr hh hi
  · rw [afterTick_complete hp hr hh hi]; exact afterTick_complete hp hr hh hi
  · rw [afterTick_tRstgo hp hr hq]; exact afterTick_tRstgo hp hr hq
  · rw [afterTick_tWait hp hr hq]; exact afterTick_tWait hp hr hq
  · rw [afterTick_rHold hp hq]; exact afterTick_rHold hp hq
  · rw [afterTick_rExit hp hq]; exact afterTick_rExit hp hq

theorem step_delay_zero {s : State} {rest : List HostLine} (hh : s.host = .delay 0 :: rest) :
    step s = .next { s with host := rest } :=
  step_of_ne_wait hh (by simp [waitLine])

theorem step_delay_succ {s : State} {n : Nat} {rest : List HostLine} (hh : s.host = .delay (n + 1) :: rest) :
    step s = .next (afterTick { s with host := .delay n :: rest }) := by
  rw [step_of_ne_wait hh (by simp [waitLine]), fetchLine, fetchTick_eq]
  exact (exec_microOp _).trans (execTick_eq _)

/-- DELAY is its ticks, and one step past it (R201). -/
theorem run_delay {s : State} {n : Nat} {rest : List HostLine} (hh : s.host = .delay n :: rest) :
    runSteps (n + 1) s = ticks n { s with host := rest } := by
  induction n generalizing s with
  | zero => exact run_succ 0 (step_delay_zero hh)
  | succ n ih =>
    rw [run_succ (n + 1) (step_delay_succ hh), ih (afterTick_host _), ticks, exec_tick, afterTick_withHost s rest,
      afterTick_withHost s (.delay n :: rest)]

/-! ## INIT -/

theorem blocking_subbs (ms : List (Bool × Byte)) : ∀ l ∈ ms.map (fun m => HostLine.subb m.1 m.2), l.blocking = true := by
  rintro _ hl
  obtain ⟨m, -, rfl⟩ := List.mem_map.mp hl
  rfl

theorem blockingBytes_subbs (ms : List (Bool × Byte)) : blockingBytes (ms.map fun m => HostLine.subb m.1 m.2) = ms := by
  rw [blockingBytes, List.filterMap_map]
  exact List.filterMap_some

/-- INIT becomes the first byte, the delay, and the other nine (R201). -/
theorem step_init {s : State} {rest : List HostLine} (hh : s.host = .init :: rest) :
    step s = .next { s with
      host := HostLine.subb true 0xE2 :: HostLine.delay s.cfg.swresetDelayTicks ::
        ((initBytes.drop 1).map (fun m => HostLine.subb m.1 m.2) ++ rest) } :=
  step_of_ne_wait hh (by simp [waitLine])

/-- Settles O57: the delay by its ticks; INIT by its first byte, the delay on an empty slot, and the nine bytes after it. -/
theorem initSendsTheTenCommands : Obligations.InitSendsTheTenCommands := by
  refine ⟨fun s n rest => run_delay, ?_⟩
  intro s rest hl hr hready hh others n
  have q : Quiet s := ⟨hl, hr, hready⟩
  have expand : Delivers s (.subb true 0xE2 :: .delay n :: others) [] :=
    .of_step (step_init hh) (q.withHost _) rfl rfl rfl
  obtain ⟨j, t, run, qt, host, rx, -, cfg⟩ := expand.trans fun t q host _ _ => Delivers.subb q host
  obtain ⟨qd, rxd⟩ := (qt.withHost others).afterTicks n
  have delay := ticks_eq n { t with host := others }
  have cfgd := afterTicks_of_frame afterTick_cfg n { t with host := others }
  have hostd := afterTicks_of_frame afterTick_host n { t with host := others }
  generalize afterTicks n { t with host := others } = d at qd rxd delay cfgd hostd
  obtain ⟨k, u, run', qu, hostu, rxu, -, -⟩ := Delivers.blockingLines qd (blocking_subbs _) hostd
  have through := (run_delay host).trans delay
  refine ⟨j, k, t, d, u, run, host, qt.empty, rx, through, delay, hostd, qd.empty, rxd, run',
    (run_add _ k ((run_add j _ run).trans through)).trans run', hostu, qu.empty, ?_⟩
  rw [rxu, rxd, rx, cfgd, cfg, blockingBytes_subbs, List.append_assoc, ← List.map_append]
  rfl

/-! ## FRAME -/

theorem step_frame {s : State} {rest : List HostLine} (hh : s.host = .frame :: rest) :
    step s = .next { s with host := frameLines s ++ rest } :=
  step_of_ne_wait hh (by simp [waitLine])

/-- FRAME's lines are the blocking submissions of the frame's bytes (R202). -/
theorem frameLines_eq (s : State) : frameLines s = (frameBytes s.cfg s.column).map fun m => HostLine.subb m.1 m.2 := by
  simp only [frameLines, frameBytes, List.map_append, List.map_flatMap, List.map_map]
  rfl

theorem Delivers.frame {s : State} {rest : List HostLine} (q : Quiet s) (hh : s.host = .frame :: rest) :
    Delivers s rest (frameBytes s.cfg s.column) := by
  have expand : Delivers s (frameLines s ++ rest) [] := .of_step (step_frame hh) (q.withHost _) rfl rfl rfl
  rw [frameLines_eq] at expand
  refine expand.trans fun t q host _ _ => ?_
  have lines := Delivers.blockingLines q (blocking_subbs _) host
  rwa [blockingBytes_subbs] at lines

/-- Settles O58: FRAME reads the whole buffer into its lines, and each is delivered. -/
theorem frameSendsTheBuffer : Obligations.FrameSendsTheBuffer := by
  intro s rest hl hr hready hh
  obtain ⟨k, t, run, q, host, rx, buf, -⟩ := Delivers.frame ⟨hl, hr, hready⟩ hh
  exact ⟨k, t, run, host, q.empty, buf, rx⟩

end Sys2Proof.Machine

/-! PROOF. The Pixel Buffer operations at their lines (43_host_sequences.md R203 to R207), and the source's end-to-end scenario (R210). -/

namespace Sys2Proof.Machine

/-! ## The steps at the lines -/

theorem step_setPx {s : State} {x y : Nat} {on : Bool} {rest : List HostLine} (hh : s.host = .setPx x y on :: rest) :
    step s = setPixel x y on { s with host := rest } :=
  step_of_ne_wait hh (by simp [waitLine])

theorem step_clrBuf {s : State} {rest : List HostLine} (hh : s.host = .clrBuf :: rest) :
    step s = clearBuffer { s with host := rest } :=
  step_of_ne_wait hh (by simp [waitLine])

theorem step_blit {s : State} {x page : Nat} {g : Glyph} {rest : List HostLine} (hh : s.host = .blit x page g :: rest) :
    step s = blitGlyph x page g { s with host := rest } :=
  step_of_ne_wait hh (by simp [waitLine])

theorem step_contrast {s : State} {v : Byte} {rest : List HostLine} (hh : s.host = .contrast v :: rest) :
    step s = if contrastOk v then .next { s with host := contrastLines v ++ rest } else .refused (.contrastOutOfRange v) := by
  rw [step_of_ne_wait hh (by simp [waitLine]), fetchLine]
  cases contrastOk v <;> rfl

/-- Settles O56: the line expands in range, and is refused by name above it. -/
theorem contrastSendsTwoCommandsInRange : Obligations.ContrastSendsTwoCommandsInRange := by
  intro s v rest hh
  rw [step_contrast hh]
  exact ⟨fun hv => ⟨if_pos (decide_eq_true hv), rfl⟩, fun hv => if_neg (by simpa [contrastOk] using hv)⟩

/-! ## The operations -/

/-- SETPX inside the buffer writes one column byte. -/
theorem setPixel_inside {s : State} {x y : Nat} {on : Bool} (hx : x < s.cfg.cols) (hy : y < s.cfg.rows) :
    setPixel x y on s = .next { s with
      buf := s.buf.write (s.cfg.cellAddress (pageOfRow y) x) (withPixelBit (s.column (pageOfRow y) x) (bitOfRow y) on) } :=
  if_pos (decide_eq_true ⟨hx, hy⟩)

theorem setPixel_outside {s : State} {x y : Nat} {on : Bool} (h : ¬(x < s.cfg.cols ∧ y < s.cfg.rows)) :
    setPixel x y on s = .fault (.contractViolation .coordinates) :=
  if_neg (by simpa [Config.pixelOk] using h)

theorem blitGlyph_inside {s : State} {x page : Nat} {g : Glyph} (hp : page < s.cfg.pages) (hx : x + 5 ≤ s.cfg.cols) :
    blitGlyph x page g s = .next { s with buf := s.buf.writeMany (s.cfg.cellAddress page x) g.toList } :=
  if_pos (decide_eq_true ⟨hp, hx⟩)

theorem blitGlyph_outside {s : State} {x page : Nat} {g : Glyph} (h : ¬(page < s.cfg.pages ∧ x + 5 ≤ s.cfg.cols)) :
    blitGlyph x page g s = .fault (.contractViolation .coordinates) :=
  if_neg (by simpa [Config.blitOk] using h)

theorem bitOfRow_lt (y : Nat) : bitOfRow y < 8 := Nat.mod_lt y (by decide)

/-- A row is its page and its bit. -/
theorem row_eq_of_page_of_bit {y z : Nat} (page : pageOfRow y = pageOfRow z) (bit : bitOfRow y = bitOfRow z) : y = z := by
  simp only [pageOfRow, bitOfRow] at page bit
  omega

/-- After the write of SETPX, the pixel it names is as asked. -/
theorem pixel_written {s : State} {x y : Nat} (on : Bool) (hwf : s.buf.wf = true) :
    State.pixel { s with
      buf := s.buf.write (s.cfg.cellAddress (pageOfRow y) x) (withPixelBit (s.column (pageOfRow y) x) (bitOfRow y) on) } x y =
      on := by
  rw [State.pixel, State.column, Memory.read_write_same _ _ hwf]
  exact withPixelBit_same _ (bitOfRow_lt y) on

/-- Every other pixel is as it was: in another byte, or another bit of the same byte. -/
theorem pixel_other {s : State} {x y x' y' : Nat} (on : Bool) (hwf : s.buf.wf = true) (hx : x < s.cfg.cols) (hx' : x' < s.cfg.cols)
    (hne : (x', y') ≠ (x, y)) :
    State.pixel { s with
      buf := s.buf.write (s.cfg.cellAddress (pageOfRow y) x) (withPixelBit (s.column (pageOfRow y) x) (bitOfRow y) on) } x' y' =
      s.pixel x' y' := by
  rw [State.pixel, State.pixel]
  by_cases same : s.cfg.cellAddress (pageOfRow y') x' = s.cfg.cellAddress (pageOfRow y) x
  · obtain ⟨page, rfl⟩ := cellAddress_inj hx' hx same
    have other_bit : bitOfRow y' ≠ bitOfRow y := fun bit => hne (by rw [row_eq_of_page_of_bit page bit])
    simp only [State.column, page, Memory.read_write_same _ _ hwf]
    exact withPixelBit_other _ (bitOfRow_lt y') other_bit on
  · rw [State.column, Memory.read_write_other _ same]
    rfl

/-- Settles O53: the line's step; inside the buffer one byte is written, with one bit of it changed. -/
theorem setPixelChangesOnePixel : Obligations.SetPixelChangesOnePixel := by
  refine ⟨fun s x y on rest => step_setPx, fun s x y on => ⟨fun hx hy hwf => ?_, setPixel_outside⟩⟩
  exact ⟨_, setPixel_inside hx hy, rfl, pixel_written on hwf, fun x' y' hx' => pixel_other on hwf hx hx',
    fun a => Memory.read_write_other _⟩

/-- Settles O54: every address of the empty buffer reads as `0x00`. -/
theorem clearBufferTurnsEveryPixelOff : Obligations.ClearBufferTurnsEveryPixelOff :=
  ⟨fun _ _ => step_clrBuf, fun _ => ⟨_, rfl, rfl, fun _ _ => rfl, fun _ _ => BitVec.getLsbD_zero⟩⟩

theorem cellAddress_add (c : Config) (p x i : Nat) : c.cellAddress p (x + i) = c.cellAddress p x + i :=
  (Nat.add_assoc _ x i).symm

/-- Settles O55: the line's step; inside the buffer five consecutive bytes are written. -/
theorem blitCopiesFiveColumns : Obligations.BlitCopiesFiveColumns := by
  refine ⟨fun s x page g rest => step_blit, fun s x page g => ⟨fun hp hx hwf => ?_, blitGlyph_outside⟩⟩
  refine ⟨_, blitGlyph_inside hp hx, rfl, fun i hi => ?_, fun a ha => ?_⟩
  · have inside := Memory.read_writeMany_inside (a := s.cfg.cellAddress page x) (bs := g.toList) hwf (i := i) (by simpa using hi)
    rw [← cellAddress_add] at inside
    exact inside.trans (Vector.getElem_toList _)
  · exact Memory.read_writeMany_outside (by simpa [Config.cellAddress] using ha)

/-! ## The end-to-end scenario -/

/-- The buffer that CLRBUF and SETPX 0,0,on leave. -/
theorem column_firstPixel {s : State} {p x : Nat}
    (hbuf : s.buf = Memory.write [] (s.cfg.cellAddress 0 0) (withPixelBit 0x00 0 true)) (hx : x < s.cfg.cols) :
    s.column p x = if p = 0 ∧ x = 0 then 0x01 else 0x00 := by
  rw [State.column, hbuf]
  by_cases corner : p = 0 ∧ x = 0
  · obtain ⟨rfl, rfl⟩ := corner
    exact (Memory.read_write_same _ _ rfl).trans (by decide)
  · have other : s.cfg.cellAddress p x ≠ s.cfg.cellAddress 0 0 := fun h =>
      corner (cellAddress_inj hx (Nat.zero_lt_of_lt hx) h)
    rw [if_neg corner, Memory.read_write_other _ other]
    rfl

/-- The frame reads the columns inside the buffer only. -/
theorem frameBytes_congr {c : Config} {f g : Nat → Nat → Byte} (h : ∀ p x, x < c.cols → f p x = g p x) :
    frameBytes c f = frameBytes c g := by
  have columns (p : Nat) : (List.range c.cols).map (fun x => (false, f p x)) = (List.range c.cols).map (fun x => (false, g p x)) :=
    List.map_congr_left fun x hx => by rw [h p x (List.mem_range.mp hx)]
  simp only [frameBytes, columns]

/-- The state before FRAME in the scenario of R210. -/
def firstPixelFrame (c : Config) : State :=
  { State.resetWith c with host := [.frame], buf := Memory.write [] (c.cellAddress 0 0) (withPixelBit 0x00 0 true) }

theorem firstPixelFrame_quiet {c : Config} (hd : DefaultLevels c) (hp : c.initRstPending = true) : Quiet (firstPixelFrame c) :=
  Quiet.hostKeeps ⟨linkInv_resetWith hd hp, receiverInv_resetWith c, rfl⟩
    (.side _ [.frame] none none (Memory.write [] (c.cellAddress 0 0) (withPixelBit 0x00 0 true))) rfl

/-- The two buffer operations, one step each. -/
theorem run_to_firstPixelFrame {c : Config} (hcols : 0 < c.cols) (hrows : 0 < c.rows) (k : Nat) :
    runSteps (k + 2) { State.resetWith c with host := [.clrBuf, .setPx 0 0 true, .frame] } = runSteps k (firstPixelFrame c) := by
  have clear : step { State.resetWith c with host := [.clrBuf, .setPx 0 0 true, .frame] } =
      .next { State.resetWith c with host := [.setPx 0 0 true, .frame] } := (step_clrBuf rfl).trans rfl
  have setFirst : step { State.resetWith c with host := [.setPx 0 0 true, .frame] } = .next (firstPixelFrame c) := by
    rw [step_setPx rfl, setPixel_inside (s := { State.resetWith c with host := [.frame] }) hcols hrows]
    rfl
  rw [run_succ (k + 1) clear, run_succ k setFirst]

/-- Settles O59: the two buffer operations, and FRAME from the state they leave, which meets the invariants as the initialisation
state does. -/
theorem endToEndScenarioStream : Obligations.EndToEndScenarioStream := by
  intro c hd hp hwf
  obtain ⟨hcols, hrows, -, -⟩ := hwf
  obtain ⟨k, t, run, q, host, rx, -, -⟩ := Delivers.frame (firstPixelFrame_quiet hd hp) rfl
  refine ⟨k + 2, t, (run_to_firstPixelFrame hcols hrows k).trans run, host, q.empty, rx.trans ?_⟩
  rw [frameBytes_congr fun p x hx => column_firstPixel (s := firstPixelFrame c) rfl hx]
  rfl

end Sys2Proof.Machine

/-! PROOF. The reset passes (R150, R154, R177) and the power-up sequence (R261), tick by tick. -/

namespace Sys2Proof.Machine

/-! ## The lines in a pass -/

/-- Where no byte is being sent, `CLK` is High once it is driven (R152 item 7). -/
theorem LinkInv.clk_high {s : State} (h : LinkInv s) (hready : s.ready = false) (driven : s.clk ≠ none) : s.clk = some .high :=
  (h.clkHigh driven).mpr (h.emptySlotAtStart hready).2

/-- With an empty slot a tick leaves `CLK` High, logs nothing and receives nothing. -/
theorem Ticked.lines_of_empty {s t : State} (h : Ticked s t) (hl : LinkInv s) (hready : s.ready = false)
    (hclk : s.clk = some .high) :
    t.ready = false ∧ t.clk = some .high ∧ t.wire = s.wire ∧ t.rx = s.rx := by
  have ready := h.empty hready
  have noRise := hl.noRise (hl.emptySlotAtStart hready).2
  refine ⟨ready, (h.linkInv hl).clk_high ready (h.clk_driven (by simp [hclk])), ?_⟩
  cases h <;> simp_all [nextRx_of_noRise]

/-! ## The ticks of a pass, by the fields a pass goes by -/

section
variable {s : State}

theorem tick_intoReset (hl : LinkInv s) (hp : s.phase = .transmitting) (hready : s.ready = false) (hq : s.resetReq = true) :
    (afterTick s).phase = .resetting ∧ (afterTick s).resetReq = true ∧ (afterTick s).rst = some .high := by
  rw [afterTick_tRstgo hp hready hq]
  exact ⟨rfl, hq, (hl.transmittingReleased hp).2⟩

theorem tick_hold (hp : s.phase = .resetting) (hq : s.resetReq = true) :
    (afterTick s).phase = .resetting ∧ (afterTick s).resetReq = false ∧ (afterTick s).rst = some .low := by
  rw [afterTick_rHold hp hq]
  exact ⟨hp, rfl, rfl⟩

theorem tick_exit (hl : LinkInv s) (hp : s.phase = .resetting) (hq : s.resetReq = false) :
    (afterTick s).phase = .idle ∧ (afterTick s).sub = .assertClockIdle ∧ (afterTick s).resetReq = false ∧
    (afterTick s).rst = some .low := by
  rw [afterTick_rExit hp hq]
  exact ⟨rfl, hl.subStart (by simp [hp]), hq, rfl⟩

theorem tick_clockIdle (hl : LinkInv s) (hp : s.phase = .idle) (hs : s.sub = .assertClockIdle) :
    (afterTick s).phase = .idle ∧ (afterTick s).sub = .assertReset ∧ (afterTick s).resetReq = s.resetReq ∧
    (afterTick s).rst = s.rst := by
  rw [afterTick_iClk hp (hl.idlePending hp) hs]
  exact ⟨hp, rfl, rfl, rfl⟩

theorem tick_release (hl : LinkInv s) (hp : s.phase = .idle) (hs : s.sub = .assertReset) :
    (afterTick s).phase = .transmitting ∧ (afterTick s).rstPending = false ∧ (afterTick s).resetReq = s.resetReq ∧
    (afterTick s).rst = some .high := by
  rw [afterTick_iRst hp (hl.idlePending hp) hs]
  exact ⟨rfl, rfl, rfl, congrArg some hl.levels.2⟩

/-- The first tick of a byte. -/
theorem tick_begin (hp : s.phase = .transmitting) (hready : s.ready = true) (hi : s.bitIndex = 0#3)
    (hh : s.halfPhase = .dataSetup) :
    (afterTick s).phase = .transmitting ∧ (afterTick s).halfPhase = .clockPulse ∧ (afterTick s).resetReq = s.resetReq ∧
    (afterTick s).rst = s.rst ∧ (afterTick s).dat = some (Level.ofBit (s.value.getLsbD 7)) := by
  rw [afterTick_tSetup hp hready hh, hi]
  exact ⟨hp, rfl, rfl, rfl, rfl⟩

end

/-- Settles O50: T.RSTGO, R.HOLD, R.EXIT, I.CLK and I.RST, each with the lines as R154 has them. -/
theorem minimalResetPassTimeline : Obligations.MinimalResetPassTimeline := by
  intro s hl hh hp hready hq
  have host (n : Nat) : (afterTicks n s).host = [] := (afterTicks_of_frame afterTick_host n s).trans hh
  have driven : s.clk ≠ none := fun hc => absurd (hp.symm.trans (hl.clkUndriven hc).1) (by decide)
  have clk := hl.clk_high hready driven
  obtain ⟨p1, q1, r1⟩ := tick_intoReset hl hp hready hq
  obtain ⟨e1, c1, w1, x1⟩ := (ticked s).lines_of_empty hl hready clk
  have l1 := (ticked s).linkInv hl
  obtain ⟨p2, q2, r2⟩ := tick_hold p1 q1
  obtain ⟨e2, c2, w2, x2⟩ := (ticked _).lines_of_empty l1 e1 c1
  have l2 := (ticked _).linkInv l1
  obtain ⟨p3, s3, q3, r3⟩ := tick_exit l2 p2 q2
  obtain ⟨e3, c3, w3, x3⟩ := (ticked _).lines_of_empty l2 e2 c2
  have l3 := (ticked _).linkInv l2
  obtain ⟨p4, s4, q4, r4⟩ := tick_clockIdle l3 p3 s3
  obtain ⟨e4, c4, w4, x4⟩ := (ticked _).lines_of_empty l3 e3 c3
  have l4 := (ticked _).linkInv l3
  obtain ⟨p5, d5, q5, r5⟩ := tick_release l4 p4 s4
  obtain ⟨e5, c5, w5, x5⟩ := (ticked _).lines_of_empty l4 e4 c4
  refine ⟨_, _, _, _, _, step_idle_host (host 0), step_idle_host (host 1), step_idle_host (host 2), step_idle_host (host 3),
    step_idle_host (host 4), ⟨p1, q1, r1⟩, ⟨p2, q2, r2⟩, ⟨p3, s3, r3⟩, ⟨p4, s4, r4.trans r3⟩,
    ⟨p5, d5, q5.trans (q4.trans q3), r5⟩, ?_⟩
  simp [c1, c2, c3, c4, c5, w1, w2, w3, w4, w5, x1, x2, x3, x4, x5]

/-! ## Requests in one gap -/

/-- Requests before the next tick are one request (R150, R176). -/
theorem run_requests {s : State} {n : Nat} {rest : List HostLine} (hh : s.host = List.replicate (n + 1) (.word 0x4000) ++ rest) :
    runSteps (n + 1) s = .next { s with host := rest, resetReq := true } := by
  induction n generalizing s with
  | zero => exact run_succ 0 (step_rstreq hh)
  | succ n ih => exact (run_succ (n + 1) (step_rstreq hh)).trans (ih rfl)

/-- Settles O51: R.EXIT where there is no request, and one R.HOLD before it for any number of requests. -/
theorem requestsInOneGapCoalesce : Obligations.RequestsInOneGapCoalesce := by
  intro s n hl hp _ hq hh
  cases n with
  | zero =>
    obtain ⟨phase, -, request, rst⟩ := tick_exit (hl.withHost []) hp hq
    exact ⟨_, run_succ 0 (step_tick hh), afterTick_host _, rst, request, fun _ => phase, fun h => nomatch h⟩
  | succ n =>
    have link := (HostKeeps.request s []).linkInv hl
    have run := (run_add (n + 1) 1 (run_requests hh)).trans (run_succ 0 (step_tick rfl))
    obtain ⟨phase, request, rst⟩ := tick_hold (s := { s with host := [], resetReq := true }) hp rfl
    obtain ⟨phase', -, -, rst'⟩ := tick_exit ((ticked _).linkInv link) phase request
    exact ⟨_, run, afterTick_host _, rst, request, (fun h => nomatch h),
      fun _ => ⟨phase, _, step_idle_host (afterTick_host _), phase', rst'⟩⟩

/-! ## A request and a byte -/

/-- Settles O52: with no tick between them the byte is in the slot before T.RSTGO can run, and T.SETUP begins it; with one the phase is
Resetting before the byte is there, and R.HOLD leaves it waiting. -/
theorem requestThenByteHasTwoOrders : Obligations.RequestThenByteHasTwoOrders := by
  intro s c v hl hp hready hq
  obtain ⟨index, half⟩ := hl.emptySlotAtStart hready
  have released := (hl.transmittingReleased hp).2
  refine ⟨fun hh => ?_, fun hh => ?_⟩
  · refine ⟨_, Eq.trans (run_succ 2 (step_rstreq hh)) (Eq.trans (run_succ 1 (step_subWord hready rfl))
      (run_succ 0 (step_tick rfl))), ?_⟩
    obtain ⟨phase, pulse, request, rst, dat⟩ := tick_begin (s := { s with
      host := [], resetReq := true, dc := some (s.cfg.dcLevel c), value := v, isCommand := c, ready := true, subDone := [] })
      hp rfl index half
    exact ⟨phase, pulse, request, rst.trans released, dat⟩
  · have enter := afterTick_tRstgo (s := { s with host := [.word (subWord c v), .word 0x0000], resetReq := true }) hp hready rfl
    have tick := step_tick (s := { s with host := [.word 0x0000, .word (subWord c v), .word 0x0000], resetReq := true }) rfl
    rw [enter] at tick
    refine ⟨_, Eq.trans (run_succ 3 (step_rstreq hh)) (Eq.trans (run_succ 2 tick)
      (Eq.trans (run_succ 1 (step_subWord hready rfl)) (run_succ 0 (step_tick rfl)))), ?_⟩
    rw [afterTick_rHold rfl rfl]
    exact ⟨rfl, rfl, rfl, half, rfl, rfl⟩

/-! ## The power-up sequence -/

/-- A run of one step more has a first step. -/
theorem core_run_succ_inv (M : Host.Core) {k : Nat} {s t : M.State} (h : M.run (k + 1) s = .next t) :
    ∃ u, M.step s = .next u ∧ M.run k u = .next t := by
  cases hs : M.step s with
  | next u => rw [core_run_succ M k hs] at h; exact ⟨u, rfl, h⟩
  | fault r => rw [Host.Core.run, hs] at h; cases h
  | refused r => rw [Host.Core.run, hs] at h; cases h

theorem run_succ_inv {k : Nat} {s t : State} (h : runSteps (k + 1) s = .next t) :
    ∃ u, step s = .next u ∧ runSteps k u = .next t :=
  core_run_succ_inv Sys2Proof.core h

/-- A predicate on the number of ticks so far, kept by every move of the host and passed on by every tick, holds along every run. -/
theorem holds_by_tickCount {P : Nat → State → Prop} (host : ∀ n s t, HostKeeps s t → P n s → P n t)
    (tick : ∀ n s, P n s → P (n + 1) (afterTick s)) {k n : Nat} {s t : State} (hs : P n s) (run : runSteps k s = .next t) :
    P (n + tickCount k s) t := by
  induction k generalizing n s with
  | zero => cases run; exact hs
  | succ k ih =>
    obtain ⟨u, head, rest⟩ := run_succ_inv run
    obtain ⟨ticks, l, rfl⟩ | ⟨noTick, kept⟩ := step_cases head
    · have count : tickCount (k + 1) s = 1 + tickCount k (afterTick { s with host := l }) := by simp [tickCount, ticks, head]
      rw [count, ← Nat.add_assoc]
      exact ih (tick n _ (host n s _ (.side s l s.lastPoll s.busData s.buf) hs)) rest
    · have count : tickCount (k + 1) s = tickCount k u := by simp [tickCount, noTick, head]
      rw [count]
      exact ih (host n s u kept hs) rest

/-- The states up to the second tick from power-up, by the ticks so far, with a reset pending (R261). -/
def PoweringUp (c : Config) : Nat → State → Prop
  | 0, s => s.cfg = c ∧ s.phase = .idle ∧ s.rstPending = true ∧ s.sub = .assertClockIdle ∧ s.clk = none ∧ s.rst = none ∧
    s.dat = none ∧ s.wire = []
  | 1, s => s.cfg = c ∧ s.phase = .idle ∧ s.rstPending = true ∧ s.sub = .assertReset ∧ s.clk = some c.clkIdleLevel ∧
    s.rst = none ∧ s.dat = none ∧ s.wire = []
  | 2, s => s.cfg = c ∧ s.phase = .transmitting ∧ s.rstPending = false ∧ s.sub = .assertClockIdle ∧
    s.clk = some c.clkIdleLevel ∧ s.rst = some c.rstStep2Level ∧ s.dat = none ∧ s.wire = []
  | _, _ => True

/-- The states up to the first tick from power-up without one (R143). -/
def StartingUp : Nat → State → Prop
  | 0, s => s.phase = .idle ∧ s.rstPending = false ∧ s.clk = none ∧ s.rst = none ∧ s.wire = []
  | 1, s => s.phase = .transmitting ∧ s.clk = none ∧ s.rst = none ∧ s.wire = []
  | _, _ => True

theorem PoweringUp.host {c : Config} (n : Nat) (s t : State) (k : HostKeeps s t) (h : PoweringUp c n s) : PoweringUp c n t := by
  match n with
  | 0 | 1 | 2 => simpa only [PoweringUp, k.cfg, k.phase, k.rstPending, k.sub, k.clk, k.rst, k.dat, k.wire] using h
  | _ + 3 => trivial

theorem PoweringUp.tick {c : Config} (n : Nat) (s : State) (h : PoweringUp c n s) : PoweringUp c (n + 1) (afterTick s) := by
  match n with
  | 0 =>
    obtain ⟨rfl, phase, pending, sub, -, rst, dat, wire⟩ := h
    rw [afterTick_iClk phase pending sub]
    exact ⟨rfl, phase, pending, rfl, rfl, rst, dat, wire⟩
  | 1 =>
    obtain ⟨rfl, phase, pending, sub, clk, -, dat, wire⟩ := h
    rw [afterTick_iRst phase pending sub]
    exact ⟨rfl, rfl, rfl, rfl, clk, rfl, dat, wire⟩
  | _ + 2 => trivial

theorem StartingUp.host (n : Nat) (s t : State) (k : HostKeeps s t) (h : StartingUp n s) : StartingUp n t := by
  match n with
  | 0 | 1 => simpa only [StartingUp, k.phase, k.rstPending, k.clk, k.rst, k.wire] using h
  | _ + 2 => trivial

theorem StartingUp.tick (n : Nat) (s : State) (h : StartingUp n s) : StartingUp (n + 1) (afterTick s) := by
  match n with
  | 0 =>
    obtain ⟨phase, pending, lines⟩ := h
    rw [afterTick_iSkip phase pending]
    exact ⟨rfl, lines⟩
  | _ + 1 => trivial

theorem poweringUp_resetWith {c : Config} (hp : c.initRstPending = true) (ls : List HostLine) :
    PoweringUp c 0 { State.resetWith c with host := ls } := ⟨rfl, rfl, hp, rfl, rfl, rfl, rfl, rfl⟩

theorem startingUp_resetWith {c : Config} (hp : c.initRstPending = false) (ls : List HostLine) :
    StartingUp 0 { State.resetWith c with host := ls } := ⟨rfl, hp, rfl, rfl, rfl⟩

section
variable {c : Config} {ls : List HostLine} {k : Nat} {t : State} (run : runSteps k { State.resetWith c with host := ls } = .next t)

include run

theorem poweringUp_of_run (hp : c.initRstPending = true) :
    PoweringUp c (tickCount k { State.resetWith c with host := ls }) t := by
  have up := holds_by_tickCount PoweringUp.host PoweringUp.tick (poweringUp_resetWith hp ls) run
  rwa [Nat.zero_add] at up

theorem startingUp_of_run (hp : c.initRstPending = false) : StartingUp (tickCount k { State.resetWith c with host := ls }) t := by
  have up := holds_by_tickCount StartingUp.host StartingUp.tick (startingUp_resetWith hp ls) run
  rwa [Nat.zero_add] at up

end

/-- The host that does nothing. -/
theorem run_idle_host {s : State} (hh : s.host = []) :
    runSteps 1 s = .next (afterTick s) ∧ runSteps 2 s = .next (afterTick (afterTick s)) := by
  have second : (afterTick s).host = [] := (afterTick_host s).trans hh
  exact ⟨run_succ 0 (step_idle_host hh), (run_succ 1 (step_idle_host hh)).trans (run_succ 0 (step_idle_host second))⟩

/-- Settles O33: the host that does nothing by its two ticks, and every host by the ticks among its steps. -/
theorem powerUpTakesTwoTicks : Obligations.PowerUpTakesTwoTicks := by
  refine ⟨fun c => ⟨fun hp => ?_, fun hp => ?_⟩, fun c ls k t => ?_⟩
  · have up1 := PoweringUp.tick 0 _ (poweringUp_resetWith hp [])
    have up2 := PoweringUp.tick 1 _ up1
    obtain ⟨-, phase, -, sub, clk, rst, -, -⟩ := up1
    obtain ⟨-, phase', pending', -, clk', rst', dat', -⟩ := up2
    obtain ⟨run1, run2⟩ := run_idle_host (s := State.resetWith c) rfl
    exact ⟨_, _, run1, clk, rst, phase, sub, run2, clk', rst', phase', pending', dat', by simp⟩
  · obtain ⟨phase, clk, rst, -⟩ := StartingUp.tick 0 _ (startingUp_resetWith hp [])
    exact ⟨_, (run_idle_host (s := State.resetWith c) rfl).1, phase, clk, rst⟩
  · intro s run
    refine ⟨fun hp => ?_, fun hp => ?_⟩
    · have up : PoweringUp c (tickCount k s) t := poweringUp_of_run run hp
      refine ⟨fun h => ?_, fun h => ?_, fun h => ?_⟩ <;> rw [h] at up
      · obtain ⟨-, phase, pending, sub, clk, rst, -, wire⟩ := up
        exact ⟨(decodeState_stateWord t).trans (congrArg some (microOp_of_clockIdlePending phase pending sub)), clk, rst, wire⟩
      · obtain ⟨-, phase, pending, sub, clk, rst, -, wire⟩ := up
        exact ⟨(decodeState_stateWord t).trans (congrArg some (microOp_of_resetPending phase pending sub)), clk, rst, wire⟩
      · exact up.2
    · have up : StartingUp (tickCount k s) t := startingUp_of_run run hp
      refine ⟨fun h => ?_, fun h => ?_⟩ <;> rw [h] at up
      · obtain ⟨phase, pending, -⟩ := up
        exact (decodeState_stateWord t).trans (congrArg some (microOp_of_nothingPending phase pending))
      · exact up

end Sys2Proof.Machine
